-- ==== Sys2Proof/Word.lean ====
section
/-! DEFINITION. The two widths the block moves data in: the byte of the serial link and of the
message buffer, and the 32-bit word that is both a flash address and a flash datum
(00_scope.md R7, R11; 20_memory.md R50, R52). -/

namespace Sys2Proof

/-- A byte: "8 bits, unsigned, 0 to 255" (R11). -/
abbrev Byte := BitVec 8

/-- A 32-bit word: a program-memory word, or an address ("Addresses are 32-bit", R7). -/
abbrev Word := BitVec 32

end Sys2Proof
end

