-- ==== Sys2Proof/Config.lean ====
section
/-! DEFINITION. What one instance of the block fixes, and the free values.
The 15 open parameters of 00_scope.md R8 are the fields of `Config`; a state carries the
parameter set it was built with (`State.cfg`), so every statement over all states is a statement
over all parameter sets. The free values stand below as constants without a body. -/

namespace Sys2Proof

/-- The configuration parameters (00_scope.md R8), "constant for the life of the block". -/
structure Config where
  /-- `RX_CAP`: capacity of the message buffer in bytes. -/
  rxCap : Nat
  /-- `BOOTLOADER_START`: first address of the guard range. -/
  bootloaderStart : Word
  /-- `APPLICATION_START`: first address after the guard range, and the application entry point. -/
  applicationStart : Word
  /-- `IVT_BASE`: write addresses below it are refused. -/
  ivtBase : Word
  /-- `WORD_STEP`: address distance between consecutive program-memory words. -/
  wordStep : Nat
  /-- `ROW_WORDS`: words in one flash row. -/
  rowWords : Nat
  /-- `PAGE_WORDS`: words in one flash page. -/
  pageWords : Nat
  /-- `MAX_WORDS`: words in one maximum-block transaction. -/
  maxWords : Nat
  /-- `PROG_LENGTH`: the program length command `0x04` reports. -/
  progLength : Word
  /-- `PLATFORM_STRING`: reply to command `0x00`, without its terminator. -/
  platformString : List Byte
  /-- `VERSION_STRING`: reply to command `0x01`, without its terminator. -/
  versionString : List Byte
  /-- `STUB_WORD0`: first word of the "jump to bootloader" stub. -/
  stubWord0 : Word
  /-- `STUB_WORD1`: second word of the stub. -/
  stubWord1 : Word
  /-- `ERASED_WORD`: value of an erased flash word. -/
  erasedWord : Word
  /-- `BOOT_THRESHOLD`: elapsed-tick threshold of the boot window. -/
  bootThreshold : Nat
  deriving DecidableEq, Repr

/-- `ROW_SPAN = ROW_WORDS * WORD_STEP` (R8). -/
def Config.rowSpan (c : Config) : Nat := c.rowWords * c.wordStep

/-- `PAGE_SPAN = PAGE_WORDS * WORD_STEP` (R8). -/
def Config.pageSpan (c : Config) : Nat := c.pageWords * c.wordStep

/-- `MAX_ROWS = MAX_WORDS / ROW_WORDS` (R8). -/
def Config.maxRows (c : Config) : Nat := c.maxWords / c.rowWords

/-- Test configuration T of 95_test_vectors.md section 0, the parameter set of `State.reset`.
DESIGN CHOICE (assumption 1, unsafe for a claim about `State.reset` alone): the spec gives no value
for any parameter, and "T is not a claim about any real target". -/
def Config.vectorT : Config where
  rxCap := 48
  bootloaderStart := 0x00000100#32
  applicationStart := 0x00000200#32
  ivtBase := 0x00000004#32
  wordStep := 2
  rowWords := 4
  pageWords := 8
  maxWords := 8
  progLength := 0x00001000#32
  platformString := [0x74#8, 0x70#8]
  versionString := [0x30#8, 0x2E#8, 0x31#8]
  stubWord0 := 0x00040100#32
  stubWord1 := 0x00000000#32
  erasedWord := 0x00FFFFFF#32
  bootThreshold := 1000

/-! ### Free values

Each is a constant no proof can evaluate. They stand for the environment answers of
10_state.md R33, which are "a free input of the step", and for the buffer bytes nothing has
written (R39; 93_implementation_defined.md U5). -/

/-- By how much `elapsed_ticks()` has grown since the previous step, where the state lists no
answer (assumption 3). The argument is the state's counter of free values. -/
opaque Config.freeTickAdvance : Nat → Nat

/-- The answer of `boot_abort_requested()`, where the state lists none (assumption 3). -/
opaque Config.freeAbort : Nat → Bool

/-- The answer of `try_receive_byte()`, where the state lists none (assumption 3). -/
opaque Config.freeReceive : Nat → Option Byte

/-- The answer `w(addr)` of `read_word(addr)` for a word whose contents the model does not know
(assumption 5; 93_implementation_defined.md U6, U7). -/
opaque Config.freeFlashWord : Nat → Word → Word

/-- The byte at an index of the message buffer that nothing has written since reset
(assumption 6; 93_implementation_defined.md U5). -/
opaque Config.unwrittenBufByte : Nat → Byte

end Sys2Proof
end

