-- ==== Sys2Proof/Syntax.lean ====
section
/-! DEFINITION. The 14 command messages, one constructor per row of spec/opcode_table.json
(30_encoding.md R95). An "instruction" of this block is one command message (00_scope.md R2); its
operands are the address of R92 and the data words of R93. -/

namespace Sys2Proof

/-- One command with its operands, as the dispatcher hands it to the command's rule (R154). -/
inductive Instr where
  /-- `0x00` `CMD_READ_PLATFORM` (R158). -/
  | readPlatform
  /-- `0x01` `CMD_READ_VERSION` (R159). -/
  | readVersion
  /-- `0x02` `CMD_READ_ROW_LEN` (R160). -/
  | readRowLen
  /-- `0x03` `CMD_READ_PAGE_LEN` (R161). -/
  | readPageLen
  /-- `0x04` `CMD_READ_PROG_LEN` (R162). -/
  | readProgLen
  /-- `0x05` `CMD_READ_MAX_PROG_SIZE` (R163). -/
  | readMaxProgSize
  /-- `0x06` `CMD_READ_APP_START_ADDR` (R164). -/
  | readAppStartAddr
  /-- `0x07` `CMD_READ_BOOT_START_ADDR` (R165). -/
  | readBootStartAddr
  /-- `0x10` `CMD_ERASE_PAGE address` (R183). -/
  | erasePage (addr : Word)
  /-- `0x20` `CMD_READ_ADDR address` (R184). -/
  | readAddr (addr : Word)
  /-- `0x21` `CMD_READ_MAX address` (R185). -/
  | readMax (addr : Word)
  /-- `0x30` `CMD_WRITE_ROW address, w0, w1, ...` (R187). -/
  | writeRow (addr : Word) (words : List Word)
  /-- `0x31` `CMD_WRITE_MAX address, w0, w1, ...` (R189). -/
  | writeMax (addr : Word) (words : List Word)
  /-- `0x40` `CMD_START_APP` (R210). -/
  | startApp
  deriving DecidableEq, Repr

end Sys2Proof
end

