-- ==== Sys2Proof/WellFormed.lean ====
section
/-! DEFINITION. The checks on a parameter set (00_scope.md R8, R9) and on an instruction
(30_encoding.md R91: exactly `ROW_WORDS` or `MAX_WORDS` data words). -/

namespace Sys2Proof

/-- The constraints every parameter set must meet: the numbered items of R9, and the type column of
R8 (`WORD_STEP` at least 1, `PAGE_WORDS` and `MAX_WORDS` at least `ROW_WORDS`, no `0x00` in a
string). -/
abbrev Config.WellFormed (c : Config) : Prop :=
  -- R9 item 1
  c.bootloaderStart ≤ c.applicationStart ∧
  -- R8: WORD_STEP is a natural of at least 1
  1 ≤ c.wordStep ∧
  -- R9 item 2
  2 ≤ c.rowWords ∧
  -- R9 item 3, and R8: PAGE_WORDS is at least ROW_WORDS
  c.pageWords % c.rowWords = 0 ∧ c.rowWords ≤ c.pageWords ∧
  -- R9 item 4, and R8: MAX_WORDS is at least ROW_WORDS
  c.maxWords % c.rowWords = 0 ∧ c.rowWords ≤ c.maxWords ∧
  -- R9 item 5
  c.rowWords ≤ 0xFFFF ∧ c.pageWords ≤ 0xFFFF ∧ c.maxWords ≤ 0xFFFF ∧
  -- R9 item 6
  1 + 4 * c.maxWords ≤ 0xFFFF ∧
  2 + c.platformString.length ≤ 0xFFFF ∧
  2 + c.versionString.length ≤ 0xFFFF ∧
  -- R9 item 7
  9 + 4 * c.maxWords ≤ c.rxCap ∧
  -- R9 item 8
  c.pageSpan < 2 ^ 32 ∧ c.maxRows * c.rowSpan < 2 ^ 32 ∧
  -- R8: the strings hold no 0x00
  0x00#8 ∉ c.platformString ∧ 0x00#8 ∉ c.versionString

/-- An instruction fits its request format (R91): a write command carries exactly a row, or exactly
a maximum block, of words. -/
def Instr.wellFormed (c : Config) : Instr → Bool
  | .readPlatform => true
  | .readVersion => true
  | .readRowLen => true
  | .readPageLen => true
  | .readProgLen => true
  | .readMaxProgSize => true
  | .readAppStartAddr => true
  | .readBootStartAddr => true
  | .erasePage _ => true
  | .readAddr _ => true
  | .readMax _ => true
  | .writeRow _ words => words.length == c.rowWords
  | .writeMax _ words => words.length == c.maxWords
  | .startApp => true

end Sys2Proof
end

