-- ==== Sys2Proof/Decode.lean ====
section
/-! DEFINITION. The two encoding layers of 30_encoding.md as pure functions: the byte-order helpers,
the escape transform, the checksum, the message parser (`decode`: 42_dispatch_info_commands.md R150
to R156, total, rejecting by name), a reader of one whole frame (`decodeFrame`), and after them the
encoder (`encode`). The block's own byte-by-byte decoder is `Machine.decodeStep`. -/

namespace Sys2Proof

/-! ### Byte order (R12, R55) -/

/-- `le16(v)` of R12. -/
def le16 (v : BitVec 16) : List Byte := [v.extractLsb' 0 8, v.extractLsb' 8 8]

/-- `le32(v)` of R12. -/
def le32 (v : Word) : List Byte :=
  [v.extractLsb' 0 8, v.extractLsb' 8 8, v.extractLsb' 16 8, v.extractLsb' 24 8]

/-- `u16(b0, b1)` of R12, as a number. -/
def u16 (b0 b1 : Byte) : Nat := b0.toNat + 256 * b1.toNat

/-- `u32(b0, b1, b2, b3)` of R12. -/
def u32 (b0 b1 b2 b3 : Byte) : Word :=
  BitVec.ofNat 32 (b0.toNat + 256 * b1.toNat + 65536 * b2.toNat + 16777216 * b3.toNat)

/-- The words of a byte list, four bytes each (R93); fewer than four bytes left over make no word. -/
def wordsOf : List Byte → List Word
  | b0 :: b1 :: b2 :: b3 :: rest => u32 b0 b1 b2 b3 :: wordsOf rest
  | _ => []

/-- The bytes of a word list, `le32` each (R93, R185). -/
def bytesOf : List Word → List Byte
  | [] => []
  | w :: ws => le32 w ++ bytesOf ws

/-! ### The wire layer (R7, R80 to R84) -/

/-- `START` (R7). -/
def startMarker : Byte := 0xF7#8

/-- `END` (R7). -/
def endMarker : Byte := 0x7F#8

/-- `ESC` (R7). -/
def escMarker : Byte := 0xF6#8

/-- `ESC_XOR` (R7). -/
def escXor : Byte := 0x20#8

/-- The byte is one of the three marker values (R80). -/
def isMarker (d : Byte) : Bool := d == startMarker || d == endMarker || d == escMarker

/-- The escape transform `E` of R82. -/
def escape (d : Byte) : List Byte :=
  if isMarker d then [escMarker, d ^^^ escXor] else [d]

/-! ### The checksum (R110, R113, R116) -/

/-- One byte of the algorithm of R110, on the pair (`sum1`, `sum2`). -/
def f16Step (s : Byte × Byte) (b : Byte) : Byte × Byte := (s.1 + b, s.2 + (s.1 + b))

/-- The two sums of the batch function, from zero (R113). -/
def f16Sums (bytes : List Byte) : Byte × Byte := bytes.foldl f16Step (0x00#8, 0x00#8)

/-- `(sum2 << 8) | sum1` (R110). -/
def f16Value (s : Byte × Byte) : BitVec 16 := (s.2.setWidth 16 <<< 8) ||| s.1.setWidth 16

/-- `F16(bytes)` of R113. -/
def f16 (bytes : List Byte) : BitVec 16 := f16Value (f16Sums bytes)

/-- `Verify(body)` of R116, for a body of at least 2 bytes; false below that (R137). -/
def verify (body : List Byte) : Bool :=
  match body.drop (body.length - 2) with
  | [lo, hi] => (f16 (body.take (body.length - 2))).toNat == u16 lo hi
  | _ => false

/-! ### The command map (R91, R95, R154) -/

/-- The request formats of R91. -/
inductive Format where
  | N | A | AR | AM
  deriving DecidableEq, Repr

/-- The argument count of a request format (R91). -/
def Format.argc (c : Config) : Format → Nat
  | .N => 0
  | .A => 4
  | .AR => 4 + 4 * c.rowWords
  | .AM => 4 + 4 * c.maxWords

/-- The command table of R95: the command byte, the request format, and the command that the address
(R92) and the data words (R93) make. -/
def commandTable : List (Byte × Format × (Word → List Word → Instr)) :=
  [ (0x00#8, .N, fun _ _ => .readPlatform),
    (0x01#8, .N, fun _ _ => .readVersion),
    (0x02#8, .N, fun _ _ => .readRowLen),
    (0x03#8, .N, fun _ _ => .readPageLen),
    (0x04#8, .N, fun _ _ => .readProgLen),
    (0x05#8, .N, fun _ _ => .readMaxProgSize),
    (0x06#8, .N, fun _ _ => .readAppStartAddr),
    (0x07#8, .N, fun _ _ => .readBootStartAddr),
    (0x10#8, .A, fun a _ => .erasePage a),
    (0x20#8, .A, fun a _ => .readAddr a),
    (0x21#8, .A, fun a _ => .readMax a),
    (0x30#8, .AR, fun a ws => .writeRow a ws),
    (0x31#8, .AM, fun a ws => .writeMax a ws),
    (0x40#8, .N, fun _ _ => .startApp) ]

/-- Selection "by the command byte alone, mask `0xFF`" (R97). -/
def commandRow (cmd : Byte) : Option (Byte × Format × (Word → List Word → Instr)) :=
  commandTable.find? (fun row => row.1 == cmd)

/-- `need(cmd)` of R154; none for an unknown command (R156). -/
def need (c : Config) (cmd : Byte) : Option Nat := (commandRow cmd).map (fun row => row.2.1.argc c)

/-- The address operand of an argument list (R92); formats without one have no argument bytes. -/
def addrOperand : List Byte → Word
  | b0 :: b1 :: b2 :: b3 :: _ => u32 b0 b1 b2 b3
  | _ => 0#32

/-- Why bytes are no command. The first four are the malformed and unknown messages of R99 and R98;
the rest concern a whole frame (R81, R100). -/
inductive DecodeError where
  /-- Fewer than 3 message bytes (R151). -/
  | noCommandByte
  /-- The length field disagrees with the bytes received (R152). -/
  | lengthMismatch
  /-- The command byte is not one of the 14 (R156). -/
  | unknownCommand
  /-- The argument count is not the command's (R155). -/
  | wrongArgCount
  /-- The first wire byte is not `START` (R129). -/
  | noStart
  /-- No raw `END` (R90). -/
  | noEnd
  /-- Bytes after the `END` of the frame (R81). -/
  | bytesAfterEnd
  /-- The body outgrows `RX_CAP` (R134). -/
  | overflow
  /-- The body has fewer than 2 bytes (R137). -/
  | noTrailer
  /-- The trailer does not match (R133). -/
  | checksumMismatch
  deriving DecidableEq, Repr

/-- The message parser: `Dispatch` of R150 up to the choice of the command's rule, in its order of
checks (R231). -/
def decode (c : Config) (m : List Byte) : Except DecodeError Instr :=
  match m with
  | l0 :: l1 :: cmd :: args =>
    if u16 l0 l1 = m.length - 2 then
      match commandRow cmd with
      | none => .error .unknownCommand
      | some row =>
        if args.length = row.2.1.argc c then
          .ok (row.2.2 (addrOperand args) (wordsOf (args.drop 4)))
        else .error .wrongArgCount
    else .error .lengthMismatch
  | _ => .error .noCommandByte

/-- A frame body: trailer, checksum, then the message (R133). -/
def decodeBody (c : Config) (body : List Byte) : Except DecodeError Instr :=
  if body.length < 2 then .error .noTrailer
  else if verify body then decode c (body.take (body.length - 2))
  else .error .checksumMismatch

/-- The unescaped body of the wire bytes that follow a `START`, up to the first raw `END` (R81, R84,
R85, R90); `esc` says that the byte before was an `ESC`. -/
def unframe (esc : Bool) : List Byte → Except DecodeError (List Byte)
  | [] => .error .noEnd
  | b :: rest =>
    if esc then (unframe false rest).map (fun body => (b ^^^ escXor) :: body)
    else if b = escMarker then unframe true rest
    else if b = endMarker then (if rest = [] then .ok [] else .error .bytesAfterEnd)
    else (unframe false rest).map (fun body => b :: body)

/-- One whole frame read as a command. -/
def decodeFrame (c : Config) (wire : List Byte) : Except DecodeError Instr :=
  match wire with
  | [] => .error .noStart
  | b :: rest =>
    if b = startMarker then
      match unframe false rest with
      | .error e => .error e
      | .ok body => if c.rxCap < body.length then .error .overflow else decodeBody c body
    else .error .noStart

/-! ### The encoder (R86 to R91, R102) -/

/-- A message: `le16(1 + len(args)) ++ [cmd] ++ args` (R87, R88); a length past 16 bits is cut off
(DEDUCED, assumption 18, unsafe). -/
def message (cmd : Byte) (args : List Byte) : List Byte :=
  le16 (BitVec.ofNat 16 (1 + args.length)) ++ [cmd] ++ args

/-- A frame body: the message and its trailer, low byte first (R86, R89). -/
def frameBody (cmd : Byte) (args : List Byte) : List Byte :=
  message cmd args ++ le16 (f16 (message cmd args))

/-- `Frame(cmd, args)` of R102. -/
def frame (cmd : Byte) (args : List Byte) : List Byte :=
  [startMarker] ++ (frameBody cmd args).flatMap escape ++ [endMarker]

/-- The command byte of an instruction (R95). -/
def Instr.cmd : Instr → Byte
  | .readPlatform => 0x00#8
  | .readVersion => 0x01#8
  | .readRowLen => 0x02#8
  | .readPageLen => 0x03#8
  | .readProgLen => 0x04#8
  | .readMaxProgSize => 0x05#8
  | .readAppStartAddr => 0x06#8
  | .readBootStartAddr => 0x07#8
  | .erasePage _ => 0x10#8
  | .readAddr _ => 0x20#8
  | .readMax _ => 0x21#8
  | .writeRow _ _ => 0x30#8
  | .writeMax _ _ => 0x31#8
  | .startApp => 0x40#8

/-- The argument bytes of an instruction (R91). -/
def Instr.args : Instr → List Byte
  | .readPlatform => []
  | .readVersion => []
  | .readRowLen => []
  | .readPageLen => []
  | .readProgLen => []
  | .readMaxProgSize => []
  | .readAppStartAddr => []
  | .readBootStartAddr => []
  | .erasePage a => le32 a
  | .readAddr a => le32 a
  | .readMax a => le32 a
  | .writeRow a ws => le32 a ++ bytesOf ws
  | .writeMax a ws => le32 a ++ bytesOf ws
  | .startApp => []

/-- The message of an instruction. -/
def Instr.message (i : Instr) : List Byte := Sys2Proof.message i.cmd i.args

/-- The wire bytes of an instruction: the frame a host sends (R102). -/
def encode (i : Instr) : List Byte := frame i.cmd i.args

/-! ### Words of the opcode table

spec/opcode_table.json numbers one byte per row: bits 7..0 are message byte 2, the command byte. -/

/-- Byte `k` of a number, byte 0 the least significant. -/
def tableByte (w k : Nat) : Byte := BitVec.ofNat 8 (w / 256 ^ k)

/-- The argument bytes of a table word: the bytes above the command byte, zero above `nbits`, as many
as the command needs (and no fewer than `nbits` gives; DESIGN CHOICE, assumption 15, safe). -/
def tableArgs (c : Config) (nbits w : Nat) : List Byte :=
  let count := max ((need c (tableByte w 0)).getD 0) (nbits / 8 - 1)
  (List.range count).map (fun k => tableByte (w % 2 ^ nbits) (k + 1))

/-- The frame body that carries a table word: the length field of R88 before it, the trailer of R89
after it. -/
def tableBody (c : Config) (nbits w : Nat) : List Byte :=
  frameBody (tableByte w 0) (tableArgs c nbits w)

/-- The instruction the decoder reads from a table word, under the parameter set of `State.reset`. -/
def decodeTableWord (nbits w : Nat) : Option Instr :=
  let wire := frame (tableByte w 0) (tableArgs Config.vectorT nbits w)
  match decodeFrame Config.vectorT wire with
  | .ok i => some i
  | .error _ => none

end Sys2Proof
end

