-- ==== Sys2Proof/Machine/State.lean ====
section
/-! DEFINITION. The state of the block as plain data: the six registers of 10_state.md, the event
history of R34, the parameter set, and the model's own record of the environment (the answers it
will give, the tick count it has reached, what is known of the flash). -/

namespace Sys2Proof.Machine

/-- `boot_state` (R25). -/
inductive BootState where
  | listening
  | running
  deriving DecidableEq, Repr

/-- `rx_state` (R26). -/
inductive RxState where
  | waitForStart
  | verbatim
  | escaped
  deriving DecidableEq, Repr

/-- The output events of R34. -/
inductive Event where
  /-- `Wdt`: `service_watchdog()`. -/
  | wdt
  /-- `Tx(b)`: `send_byte(b)`. -/
  | tx (b : Byte)
  /-- `FlashRead(addr) = v`: `read_word(addr)` answered `v`. -/
  | flashRead (addr : Word) (v : Word)
  /-- `FlashErase(addr)`: `erase_page(addr)`. -/
  | flashErase (addr : Word)
  /-- `FlashWriteRow(addr, ws)`: `write_row(addr, ws)`. -/
  | flashWriteRow (addr : Word) (words : List Word)
  /-- `StartApp(addr)`: `start_application(addr)`. -/
  | startApp (addr : Word)
  deriving DecidableEq, Repr

/-- The environment answers of one step (R33), but for those of `read_word`. The tick answer is given
by its growth, so that the answers of a run are non-decreasing by construction (assumption 2). -/
structure StepInput where
  /-- By how much `elapsed_ticks()` has grown since the step before. -/
  tickAdvance : Nat
  /-- `boot_abort_requested()`. -/
  abort : Bool
  /-- `try_receive_byte()`. -/
  rx : Option Byte
  deriving DecidableEq, Repr

/-- A sparse memory: (key, value) pairs, keys strictly rising; an unlisted key has no value. -/
abbrev Memory (α : Type) := List (Nat × α)

/-- The state of the machine. -/
structure State where
  /-- The parameters of R8; no rule writes them (R29). -/
  cfg : Config
  /-- `boot_state`. -/
  bootState : BootState
  /-- `rx_state`. -/
  rxState : RxState
  /-- `rx_len`: the number of bytes held in `buf`. -/
  rxLen : Nat
  /-- `buf`: the message buffer; an index nothing has written has no value (R39). -/
  buf : List Host.Cell
  /-- `sum1` of the checksum accumulator. -/
  sum1 : Byte
  /-- `sum2` of the checksum accumulator. -/
  sum2 : Byte
  /-- The event trace of the boot cycle, oldest first (R34, R241; assumption 16). -/
  trace : List Event
  /-- The model's own: the environment's answers for the steps to come, the next step's first.
  Past its end every answer is a free value. -/
  inputs : List StepInput
  /-- The model's own: the last answer of `elapsed_ticks()` in this boot cycle, 0 before the first. -/
  elapsed : Nat
  /-- The model's own: the flash words whose contents are known, by address (R66). -/
  flash : Memory Word
  /-- The model's own: how many free values have been taken. -/
  freeCount : Nat
  deriving DecidableEq, Repr

/-- Why the machine stops. -/
inductive Fault where
  /-- Raised by `step` in `Running`: "the block has no enabled step" until reset (R205). The normal
  end of a run, not an error (93_implementation_defined.md U13; DESIGN CHOICE, assumption 8). Safe. -/
  | noStepEnabled
  deriving DecidableEq, Repr

/-- Why a step or an instruction has no meaning. -/
inductive Refusal where
  /-- Raised by `exec` for an instruction that has no meaning yet; no arm does. Safe. -/
  | notModelled (mnemonic : String)
  /-- Raised by `step` where the parameter set fails R9: "refuse a configuration that fails one"
  (also 93_implementation_defined.md U12; DEDUCED, assumption 11). Safe. -/
  | illFormedConfiguration
  deriving DecidableEq, Repr

/-- The state right after reset of a block with parameter set `c` (R36 to R40, R241): `buf` holds no
value, the trace is empty. The environment's answers are all free and no flash word is known (DESIGN CHOICE, assumption 10,
unsafe). -/
def State.resetWith (c : Config) : State where
  cfg := c
  bootState := .listening
  rxState := .waitForStart
  rxLen := 0
  buf := []
  sum1 := 0x00#8
  sum2 := 0x00#8
  trace := []
  inputs := []
  elapsed := 0
  flash := []
  freeCount := 0

/-- The state right after reset, with test configuration T (assumption 1). -/
def State.reset : State := State.resetWith Config.vectorT

end Sys2Proof.Machine
end

