-- ==== Sys2Proof/Machine/Flags.lean ====
section
/-! DEFINITION. The block has no flags (10_state.md section 4). What its arithmetic leaves behind is
the checksum accumulator; its two operations are here (40_checksum.md R111, R112). -/

namespace Sys2Proof.Machine

/-- `AccReset()` of R111. Zero is the spec's choice (PRESUMED, assumption 9, unsafe). -/
def accReset (s : State) : State := { s with sum1 := 0x00#8, sum2 := 0x00#8 }

/-- `Accumulate(b)` of R112: one byte of the algorithm of R110 on the pair of registers. -/
def accumulate (b : Byte) (s : State) : State :=
  { s with sum1 := (f16Step (s.sum1, s.sum2) b).1, sum2 := (f16Step (s.sum1, s.sum2) b).2 }

/-- The 16-bit running checksum `(sum2 << 8) | sum1` that `Accumulate` returns (R112). -/
def runningChecksum (s : State) : BitVec 16 := f16Value (s.sum1, s.sum2)

end Sys2Proof.Machine
end

