-- ==== Sys2Proof/Machine/Operands.lean ====
section
/-! DEFINITION. What the commands compute from their address and data operands: the address
arithmetic (20_memory.md R52, R72), the address-range guard (R63), the rows of a maximum block
(43_memory_commands.md R188) and the reset-vector stub (R186, R192). There is one addressing mode,
absolute (R180). -/

namespace Sys2Proof.Machine

/-- `(A + i * WORD_STEP) mod 2^32`: the address of word `i` of a block at `A` (R52, R72). -/
def wordAddr (c : Config) (A : Word) (i : Nat) : Word := BitVec.ofNat 32 (A.toNat + i * c.wordStep)

/-- `RowAddr(A, k)` of R188. -/
def rowAddr (c : Config) (A : Word) (k : Nat) : Word := BitVec.ofNat 32 (A.toNat + k * c.rowSpan)

/-- `RowWords(word, k)` of R188. -/
def rowWordsAt (c : Config) (words : List Word) (k : Nat) : List Word :=
  (words.drop (k * c.rowWords)).take c.rowWords

/-- `InGuard(a)` of R63. -/
def inGuard (c : Config) (a : Word) : Bool :=
  decide (c.bootloaderStart ≤ a) && decide (a < c.applicationStart)

/-- `BelowIvt(a)` of R63. -/
def belowIvt (c : Config) (a : Word) : Bool := decide (a < c.ivtBase)

/-- `EraseRefused(a)` of R63. -/
def eraseRefused (c : Config) (a : Word) : Bool := inGuard c a

/-- `WriteRefused(a)` of R63. -/
def writeRefused (c : Config) (a : Word) : Bool := inGuard c a || belowIvt c a

/-- `A < PAGE_SPAN`: the address lies in the zero page (R183). -/
def inZeroPage (c : Config) (a : Word) : Bool := decide (a.toNat < c.pageSpan)

/-- `StubRow` of R192. -/
def stubRow (c : Config) : List Word :=
  [c.stubWord0, c.stubWord1] ++ List.replicate (c.rowWords - 2) c.erasedWord

/-- `ForceStub(ra, ws)` of R186. -/
def forceStub (c : Config) (ra : Word) (ws : List Word) : List Word :=
  if ra = 0#32 then [c.stubWord0, c.stubWord1] ++ ws.drop 2 else ws

end Sys2Proof.Machine
end

