-- ==== Sys2Proof/Machine/Ops.lean ====
section
/-! DEFINITION. The shared operations: the sparse memory, the event history, the streaming encoder
(41_framing_codec.md R120 to R124), the flash capability with the minimal contents model of
20_memory.md R66, the message buffer (R134), the environment's answers (10_state.md R33), the one
transfer of control, and reset. The block has no exceptions: nothing saves state or vectors
(60_exceptions.md R232), and there is no trap return (R233). -/

namespace Sys2Proof.Machine

/-! ### Sparse memory -/

/-- The value at a key, none where the key is not listed. -/
def Memory.read {α : Type} : Memory α → Nat → Option α
  | [], _ => none
  | (k, v) :: rest, a => if k = a then some v else Memory.read rest a

/-- Store a value at a key, keeping the keys strictly rising. -/
def Memory.write {α : Type} : Memory α → Nat → α → Memory α
  | [], a, v => [(a, v)]
  | (k, w) :: rest, a, v =>
    if a < k then (a, v) :: (k, w) :: rest
    else if a = k then (a, v) :: rest
    else (k, w) :: Memory.write rest a v

/-- Drop what is known of every key that `p` picks. -/
def Memory.forget {α : Type} (p : Nat → Bool) (m : Memory α) : Memory α :=
  m.filter (fun cell => !p cell.1)

/-- The canonical form: keys strictly rising. (An unlisted key has no value, so no entry can equal
what an unlisted key reads as.) -/
abbrev Memory.wf {α : Type} (m : Memory α) : Prop := (m.map Prod.fst).Pairwise (· < ·)

/-- Store values at `a`, `a + step`, ... -/
def Memory.writeBlock {α : Type} (step : Nat) : Memory α → Nat → List α → Memory α
  | m, _, [] => m
  | m, a, v :: vs => Memory.writeBlock step (Memory.write m a v) (a + step) vs

/-- Store values at `a`, `a + step`, ..., each key reduced modulo `2^32` (R52, R72). -/
def Memory.writeRound {α : Type} (step : Nat) : Memory α → Nat → List α → Memory α
  | m, _, [] => m
  | m, a, v :: vs => Memory.writeRound step (Memory.write m (a % 2 ^ 32) v) (a + step) vs

/-! ### The event history (R13 `emit`, R34) -/

/-- Append one event to the trace. -/
def emit (e : Event) (s : State) : State := { s with trace := s.trace ++ [e] }

/-! ### The encoder -/

/-- `EmitData(d)` of R121: accumulate the unescaped byte, send it escaped. -/
def emitData (d : Byte) (s : State) : State :=
  if isMarker d then emit (.tx (d ^^^ escXor)) (emit (.tx escMarker) (accumulate d s))
  else emit (.tx d) (accumulate d s)

/-- `EmitData` over a list, in order. -/
def emitAll (ds : List Byte) (s : State) : State := ds.foldl (fun s d => emitData d s) s

/-- Step 5 of R122: both trailer bytes come from one latched value (R123). -/
def emitTrailer (s : State) : State := emitData s.sum2 (emitData s.sum1 s)

/-- `Encode(cmd, args)` of R122, the block's only way to send. -/
def encodeReply (cmd : Byte) (args : List Byte) (s : State) : State :=
  emit (.tx endMarker)
    (emitTrailer
      (emitAll args
        (emitData cmd
          (emitAll (le16 (BitVec.ofNat 16 (1 + args.length)))
            (accReset
              (emit (.tx startMarker) s))))))

/-! ### The flash capability

The block holds no copy of the flash (R66). `State.flash` records what R66 guarantees of it; every other
answer of `read_word` is a free value (DESIGN CHOICE, assumptions 4, unsafe, and 5, safe). -/

/-- The word that the flash is known to hold at an address. -/
def flashKnown (s : State) (a : Word) : Option Word := Memory.read s.flash a.toNat

/-- The answer `w(a)` of `read_word(a)` (R33): the known word, else a free value. -/
def flashAnswer (s : State) (a : Word) : Word :=
  match flashKnown s a with
  | some v => v
  | none => Config.freeFlashWord s.freeCount a

/-- `FlashRead(a)`: emit the event and, where the answer was free, count it. -/
def flashRead (a : Word) (s : State) : State :=
  { emit (.flashRead a (flashAnswer s a)) s with
    freeCount := s.freeCount + (if (flashKnown s a).isSome then 0 else 1) }

/-- `FlashRead` at each address of a list, in order: the answers and the state after. -/
def flashReadAll : List Word → State → List Word × State
  | [], s => ([], s)
  | a :: rest, s =>
    (flashAnswer s a :: (flashReadAll rest (flashRead a s)).1,
      (flashReadAll rest (flashRead a s)).2)

/-- The word at key `k`, which is `WORD_STEP` addresses long, shares an address with the `len` addresses
from `base` on, round the end of the address space. -/
def wordMeets (c : Config) (base len k : Nat) : Bool :=
  let up := (k + (2 ^ 32 - base % 2 ^ 32)) % 2 ^ 32
  decide (up < len) || decide (2 ^ 32 < up + c.wordStep)

/-- What is known of the flash once it holds the words `ws` in the block at `a`: word `i` is at
`(a + i * WORD_STEP) mod 2^32` (R52, R66), and a word that shares an address with the block without being
one of its words is unknown (assumption 4). -/
def flashStore (c : Config) (a : Nat) (ws : List Word) (m : Memory Word) : Memory Word :=
  Memory.writeRound c.wordStep (Memory.forget (wordMeets c a (ws.length * c.wordStep)) m) a ws

/-- The first address of the page that contains `a` (R58; pages lie at multiples of `PAGE_SPAN`,
assumption 4). -/
def pageBase (c : Config) (a : Word) : Nat := a.toNat / c.pageSpan * c.pageSpan

/-- What is known of the flash after `erase_page(a)`: each of the `PAGE_WORDS` words of the page that
contains `a` holds the erased value (R52, R66). -/
def flashAfterErase (c : Config) (a : Word) (m : Memory Word) : Memory Word :=
  flashStore c (pageBase c a) (List.replicate c.pageWords c.erasedWord) m

/-- The word at key `k` lies in a row that an unaligned row write at `a` might touch: the row that
contains `a` and the one after it, round the end of the address space (93_implementation_defined.md
U6). -/
def rowMayTouch (c : Config) (a : Word) (k : Nat) : Bool :=
  wordMeets c (a.toNat / c.rowSpan * c.rowSpan) (2 * c.rowSpan) k

/-- What is known of the flash after `write_row(a, ws)`: at a row-aligned address, word `i` holds
`ws[i]` (R66), also where the row runs past the end of the address space; at any other, every word the
operation might touch is unknown (U6). -/
def flashAfterWriteRow (c : Config) (a : Word) (ws : List Word) (m : Memory Word) : Memory Word :=
  if a.toNat % c.rowSpan = 0 then flashStore c a.toNat ws m
  else Memory.forget (rowMayTouch c a) m

/-- What is known of the flash after an event. -/
def flashAfterEvent (c : Config) (m : Memory Word) : Event → Memory Word
  | .wdt => m
  | .tx _ => m
  | .flashRead _ _ => m
  | .flashErase a => flashAfterErase c a m
  | .flashWriteRow a ws => flashAfterWriteRow c a ws m
  | .startApp _ => m

/-- What is known of the flash after events, in order: "the order of the trace is the order of effect"
(R67). -/
def flashAfterEvents (c : Config) (es : List Event) (m : Memory Word) : Memory Word :=
  es.foldl (flashAfterEvent c) m

/-- `FlashErase(a)` (R60: complete when the event is emitted; it never fails, DESIGN CHOICE, assumption
19, unsafe). -/
def flashErase (a : Word) (s : State) : State :=
  { emit (.flashErase a) s with flash := flashAfterErase s.cfg a s.flash }

/-- `FlashWriteRow(a, ws)` (R60). -/
def flashWriteRow (a : Word) (ws : List Word) (s : State) : State :=
  { emit (.flashWriteRow a ws) s with flash := flashAfterWriteRow s.cfg a ws s.flash }

/-- `FlashWriteRow` for each row of a list, in order. -/
def flashWriteRows (rows : List (Word × List Word)) (s : State) : State :=
  rows.foldl (fun s row => flashWriteRow row.1 row.2 s) s

/-! ### The message buffer and the decoder registers -/

/-- The byte at an index of `buf`; a free value where nothing has written it (R39, U5). -/
def bufByte (s : State) (i : Nat) : Byte :=
  match Memory.read s.buf i with
  | some b => b
  | none => Config.unwrittenBufByte i

/-- `buf[0 .. rx_len-1]`. -/
def bufBody (s : State) : List Byte := (List.range s.rxLen).map (bufByte s)

/-- The decoder back at (`WaitForStart`, `rx_len = 0`) (R135). -/
def decoderIdle (s : State) : State := { s with rxLen := 0, rxState := .waitForStart }

/-- `Append(d)` of R134. -/
def append (d : Byte) (s : State) : State :=
  if s.rxLen = s.cfg.rxCap then decoderIdle s
  else { s with buf := Memory.write s.buf s.rxLen d, rxLen := s.rxLen + 1, rxState := .verbatim }

/-- The message that `Complete` of R133 hands to the dispatcher, none where the frame is dropped
(R137, R222). -/
def completedMessage (s : State) : Option (List Byte) :=
  if s.rxLen < 2 then none
  else if verify (bufBody s) then some ((bufBody s).take (s.rxLen - 2))
  else none

/-! ### The environment's answers -/

/-- The answers of the coming step: the listed ones, else free values (R33). -/
def nextInput (s : State) : StepInput :=
  match s.inputs with
  | input :: _ => input
  | [] =>
    { tickAdvance := Config.freeTickAdvance s.freeCount
      abort := Config.freeAbort s.freeCount
      rx := Config.freeReceive s.freeCount }

/-- The state once the step has its answers: `elapsed` is the answer `t` of `elapsed_ticks()`. -/
def takeInput (s : State) : State :=
  { s with
    elapsed := s.elapsed + (nextInput s).tickAdvance
    inputs := s.inputs.tail
    freeCount := s.freeCount + (if s.inputs.isEmpty then 1 else 0) }

/-! ### The transfer of control, and reset -/

/-- The hand-over of R203 and R210: `boot_state <- Running`, then `StartApp(APPLICATION_START)`
(R211). It saves nothing (R232). -/
def handOver (s : State) : State :=
  emit (.startApp s.cfg.applicationStart) { s with bootState := .running }

/-- A reset between two steps (R240 to R242): the registers take their reset values and the trace
starts empty; the parameters and the flash stay, the tick count restarts (R41), and the environment goes
on. `elapsed` 0 is the model's choice (DESIGN CHOICE, assumption 14, unsafe). So is it that the flash
record also outlives a stay in `Running`: the spec does not say whether the application, between
`StartApp` and this reset, changes the flash (DESIGN CHOICE, assumption 22, unsafe). A reset inside a step
is `resetInside` of Machine/Reset.lean. -/
def State.reboot (s : State) : State :=
  { State.resetWith s.cfg with inputs := s.inputs, flash := s.flash, freeCount := s.freeCount }

end Sys2Proof.Machine
end

