-- ==== Sys2Proof/Machine/Boot.lean ====
section
/-! DEFINITION. The boot decision (44_boot_policy.md R203) and command `0x40` (R210). -/

namespace Sys2Proof.Machine

/-- `CMD_START_APP()` (R210): "at any time, regardless of elapsed time" and of the abort signal. -/
def execStartApp (s : State) : Host.Outcome State Fault Refusal := .next (handOver s)

/-- `BOOT_THRESHOLD` from a window of `num / den` seconds and a tick rate in Hz, rounded down (R206); for
a platform that gives the two instead of the threshold. -/
def bootThresholdOf (num den tickRate : Nat) : Nat := num * tickRate / den

/-- Case (a) of R203: `t > BOOT_THRESHOLD`, strictly, and the abort signal not asserted. -/
def windowExpired (c : Config) (t : Nat) (abort : Bool) : Bool :=
  decide (t > c.bootThreshold) && !abort

end Sys2Proof.Machine
end

