-- ==== Sys2Proof/Machine/FlashCommands.lean ====
section
/-! DEFINITION. The five memory commands (43_memory_commands.md R180 to R193). A refused command is
a no-op (R182, R224): the next state is the state as it was. None of the mutating commands replies
(R190; DESIGN CHOICE of the spec, assumption 13, unsafe). -/

namespace Sys2Proof.Machine

/-- `CMD_ERASE_PAGE(A)` (R183). -/
def execErasePage (A : Word) (s : State) : Host.Outcome State Fault Refusal :=
  if eraseRefused s.cfg A then .next s
  else if inZeroPage s.cfg A then
    .next (flashWriteRow 0x00000000#32 (stubRow s.cfg) (flashErase A s))
  else .next (flashErase A s)

/-- `CMD_READ_ADDR(A)` (R184). -/
def execReadAddr (A : Word) (s : State) : Host.Outcome State Fault Refusal :=
  .next (encodeReply 0x20#8 (le32 (flashAnswer s A)) (flashRead A s))

/-- The addresses that `CMD_READ_MAX(A)` reads, ascending (R185). -/
def readMaxAddrs (c : Config) (A : Word) : List Word := (List.range c.maxWords).map (wordAddr c A)

/-- `CMD_READ_MAX(A)` (R185): all reads first, then the reply. -/
def execReadMax (A : Word) (s : State) : Host.Outcome State Fault Refusal :=
  .next (encodeReply 0x21#8 (bytesOf (flashReadAll (readMaxAddrs s.cfg A) s).1)
    (flashReadAll (readMaxAddrs s.cfg A) s).2)

/-- `CMD_WRITE_ROW(A, word)` (R187). -/
def execWriteRow (A : Word) (words : List Word) (s : State) : Host.Outcome State Fault Refusal :=
  if writeRefused s.cfg A then .next s
  else .next (flashWriteRow A (forceStub s.cfg A words) s)

/-- The rows that `CMD_WRITE_MAX(A, word)` programs, ascending, the stub forced in the one at
address 0 (R186, R188, R189). -/
def writeMaxRows (c : Config) (A : Word) (words : List Word) : List (Word × List Word) :=
  (List.range c.maxRows).map
    (fun k => (rowAddr c A k, forceStub c (rowAddr c A k) (rowWordsAt c words k)))

/-- `CMD_WRITE_MAX(A, word)` (R189): every row is checked before the first is written. -/
def execWriteMax (A : Word) (words : List Word) (s : State) : Host.Outcome State Fault Refusal :=
  if (List.range s.cfg.maxRows).any (fun k => writeRefused s.cfg (rowAddr s.cfg A k)) then .next s
  else .next (flashWriteRows (writeMaxRows s.cfg A words) s)

end Sys2Proof.Machine
end

