-- ==== Sys2Proof/Machine/Info.lean ====
section
/-! DEFINITION. The eight information commands (42_dispatch_info_commands.md R158 to R165). -/

namespace Sys2Proof.Machine

/-- `CMD_READ_PLATFORM` (R158). -/
def execReadPlatform (s : State) : Host.Outcome State Fault Refusal :=
  .next (encodeReply 0x00#8 (s.cfg.platformString ++ [0x00#8]) s)

/-- `CMD_READ_VERSION` (R159). -/
def execReadVersion (s : State) : Host.Outcome State Fault Refusal :=
  .next (encodeReply 0x01#8 (s.cfg.versionString ++ [0x00#8]) s)

/-- `CMD_READ_ROW_LEN` (R160). -/
def execReadRowLen (s : State) : Host.Outcome State Fault Refusal :=
  .next (encodeReply 0x02#8 (le16 (BitVec.ofNat 16 s.cfg.rowWords)) s)

/-- `CMD_READ_PAGE_LEN` (R161). -/
def execReadPageLen (s : State) : Host.Outcome State Fault Refusal :=
  .next (encodeReply 0x03#8 (le16 (BitVec.ofNat 16 s.cfg.pageWords)) s)

/-- `CMD_READ_PROG_LEN` (R162). -/
def execReadProgLen (s : State) : Host.Outcome State Fault Refusal :=
  .next (encodeReply 0x04#8 (le32 s.cfg.progLength) s)

/-- `CMD_READ_MAX_PROG_SIZE` (R163). -/
def execReadMaxProgSize (s : State) : Host.Outcome State Fault Refusal :=
  .next (encodeReply 0x05#8 (le16 (BitVec.ofNat 16 s.cfg.maxWords)) s)

/-- `CMD_READ_APP_START_ADDR` (R164). -/
def execReadAppStartAddr (s : State) : Host.Outcome State Fault Refusal :=
  .next (encodeReply 0x06#8 (le32 s.cfg.applicationStart) s)

/-- `CMD_READ_BOOT_START_ADDR` (R165). -/
def execReadBootStartAddr (s : State) : Host.Outcome State Fault Refusal :=
  .next (encodeReply 0x07#8 (le32 s.cfg.bootloaderStart) s)

end Sys2Proof.Machine
end

