-- ==== Sys2Proof/Machine/Dispatch.lean ====
section
/-! DEFINITION. The dispatch table of 42_dispatch_info_commands.md R154, one arm a command. The mode and the
parameters are checked by `step`, not here (DESIGN CHOICE, assumption 12). -/

namespace Sys2Proof.Machine

def exec (i : Instr) (s : State) : Host.Outcome State Fault Refusal :=
  match i with
  | .readPlatform => Sys2Proof.Machine.execReadPlatform s
  | .readVersion => Sys2Proof.Machine.execReadVersion s
  | .readRowLen => Sys2Proof.Machine.execReadRowLen s
  | .readPageLen => Sys2Proof.Machine.execReadPageLen s
  | .readProgLen => Sys2Proof.Machine.execReadProgLen s
  | .readMaxProgSize => Sys2Proof.Machine.execReadMaxProgSize s
  | .readAppStartAddr => Sys2Proof.Machine.execReadAppStartAddr s
  | .readBootStartAddr => Sys2Proof.Machine.execReadBootStartAddr s
  | .erasePage addr => Sys2Proof.Machine.execErasePage addr s
  | .readAddr addr => Sys2Proof.Machine.execReadAddr addr s
  | .readMax addr => Sys2Proof.Machine.execReadMax addr s
  | .writeRow addr words => Sys2Proof.Machine.execWriteRow addr words s
  | .writeMax addr words => Sys2Proof.Machine.execWriteMax addr words s
  | .startApp => Sys2Proof.Machine.execStartApp s

end Sys2Proof.Machine
end

