-- ==== Sys2Proof/Machine/Loop.lean ====
section
/-! DEFINITION. The dispatcher (R150), the frame decoder (R127) and one iteration of the control
loop (R200), with the staging of a frame that `State.withFetchWord` uses. -/

namespace Sys2Proof.Machine

/-- Apply a state change to a next state; a stop stays a stop. -/
def onNext (f : State → State) :
    Host.Outcome State Fault Refusal → Host.Outcome State Fault Refusal
  | .next s => .next (f s)
  | .fault r => .fault r
  | .refused r => .refused r

/-- `Dispatch(m)` of R150: an unknown or malformed message is ignored, with "no reply, no event, no
register change" (R151, R152, R155, R156). -/
def dispatch (m : List Byte) (s : State) : Host.Outcome State Fault Refusal :=
  match decode s.cfg m with
  | .error _ => .next s
  | .ok i => exec i s

/-- `Complete()` of R133: dispatch the message of a good frame, then clear the decoder (R135). -/
def complete (s : State) : Host.Outcome State Fault Refusal :=
  onNext decoderIdle
    (match completedMessage s with
      | none => .next s
      | some m => dispatch m s)

/-- `DecodeStep(b)` of R127. -/
def decodeStep (b : Byte) (s : State) : Host.Outcome State Fault Refusal :=
  match s.rxState with
  | .waitForStart =>
    -- R128, R129
    if b = startMarker then .next { s with rxState := .verbatim, rxLen := 0 } else .next s
  | .verbatim =>
    -- R130, R133, R131
    if b = escMarker then .next { s with rxState := .escaped }
    else if b = endMarker then complete s
    else .next (append b s)
  | .escaped =>
    -- R132
    .next (append (b ^^^ escXor) s)

/-- `Run(state, bytes)` of R139: `DecodeStep` on each byte in order, while `Listening` (R205). -/
def decodeRun : List Byte → State → Host.Outcome State Fault Refusal
  | [], s => .next s
  | b :: rest, s =>
    match s.bootState with
    | .running => .next s
    | .listening =>
      match decodeStep b s with
      | .next t => decodeRun rest t
      | .fault r => .fault r
      | .refused r => .refused r

/-- The state in which a listening step takes its decision: the watchdog serviced (R201), the
answers sampled (R202). -/
def sampled (s : State) : State := takeInput (emit .wdt s)

/-- `Step()` of R200, enabled in `Listening` only (R205), for a parameter set that meets R9. -/
def loopStep (s : State) : Host.Outcome State Fault Refusal :=
  if s.cfg.WellFormed then
    match s.bootState with
    | .running => .fault .noStepEnabled
    | .listening =>
      if windowExpired s.cfg (sampled s).elapsed (nextInput s).abort then
        .next (handOver (sampled s))
      else
        match (nextInput s).rx with
        | none => .next (sampled s)
        | some b => decodeStep b (sampled s)
  else .refused .illFormedConfiguration

/-- The state in which a frame with this body has arrived but for its end marker, which is the next
byte the transport answers, with the boot window held open by the abort signal. -/
def stageBody (body : List Byte) (s : State) : State :=
  { s with
    bootState := .listening
    rxState := .verbatim
    rxLen := body.length
    buf := Memory.writeBlock 1 s.buf 0 body
    inputs := { tickAdvance := 0, abort := true, rx := some endMarker } :: s.inputs }

end Sys2Proof.Machine
end

