-- ==== Sys2Proof/Machine/Step.lean ====
section
/-! DEFINITION. The step of the machine, and the state in which the very next step runs a word of
the opcode table. -/

namespace Sys2Proof.Machine

/-- One step: one iteration of the control loop (44_boot_policy.md R200). -/
def step (s : State) : Host.Outcome State Fault Refusal := loopStep s

/-- The command of a table word, received but for its end marker (DESIGN CHOICE, assumption 7,
safe). -/
def State.withFetchWord (s : State) (nbits w : Nat) : State :=
  stageBody (tableBody s.cfg nbits w) s

end Sys2Proof.Machine
end

