-- ==== Sys2Proof/Machine/Ports.lean ====
section
/-! DEFINITION. The block's output ports (10_state.md R31) as views of the state and of the events.
"The port list adds no behaviour": one event is one transaction on its port group, and the cycles
inside a transaction are outside the spec (00_scope.md R6, 70_reset_and_hazards.md R258; DESIGN CHOICE, assumption 16,
safe). -/

namespace Sys2Proof.Machine

/-- `app_go`: high from the transition to `Running` until reset. -/
def appGo (s : State) : Bool := s.bootState == .running

/-- `app_addr`: holds `APPLICATION_START`. -/
def appAddr (s : State) : Word := s.cfg.applicationStart

/-- `wdt_kick`: the event is the watchdog pulse. -/
def wdtKick : Event → Bool
  | .wdt => true
  | _ => false

/-- `tx_data` while `tx_valid`: the byte of a `Tx` event. -/
def txData : Event → Option Byte
  | .tx b => some b
  | _ => none

/-- `fl_op` while `fl_req`: 0 = read word, 1 = erase page, 2 = write row. -/
def flOp : Event → Option (BitVec 2)
  | .flashRead _ _ => some 0#2
  | .flashErase _ => some 1#2
  | .flashWriteRow _ _ => some 2#2
  | _ => none

/-- `fl_addr` while `fl_req`: the address argument. -/
def flAddr : Event → Option Word
  | .flashRead a _ => some a
  | .flashErase a => some a
  | .flashWriteRow a _ => some a
  | _ => none

/-- `fl_wdata`: the row words, one per cycle in order, while `fl_op = 2`. -/
def flWdata : Event → List Word
  | .flashWriteRow _ ws => ws
  | _ => []

/-- `rx_take`: the step consumes the byte its transport answers with. A step that the expired window
ends takes none (R203). -/
def rxTake (s : State) : Bool :=
  s.bootState == .listening &&
    !windowExpired s.cfg (sampled s).elapsed (nextInput s).abort && (nextInput s).rx.isSome

end Sys2Proof.Machine
end

