-- ==== Sys2Proof/Machine/Reset.lean ====
section
/-! DEFINITION. A reset that lands inside a step, between two of its events. Each flash operation is "one
indivisible change of the flash" (20_memory.md R60), and a command that issues several is not atomic as
a whole: "a reset in the middle of a multi-operation command leaves the flash between two of its
operations" (70_reset_and_hazards.md R242, R248, R252). -/

namespace Sys2Proof.Machine

/-- The events that `t` has in its trace beyond those of `s`. -/
def newEvents (s t : State) : List Event := t.trace.drop s.trace.length

/-- The block after a reset that lands once `n` events of what leads from `s` to the outcome have
happened: the flash as those events left it, everything else as after any reset (R240). The answers that
were to serve the rest of the step are lost with it (DESIGN CHOICE, assumption 14, unsafe). -/
def cutShort (n : Nat) (s : State) :
    Host.Outcome State Fault Refusal → Host.Outcome State Fault Refusal :=
  onNext (fun t =>
    { State.reboot t with flash := flashAfterEvents s.cfg ((newEvents s t).take n) s.flash })

/-- A reset inside the step that starts at `s`, after `n` of its events. In `Running` there is no step
for it to land in: a reset there is `State.reboot`. -/
def resetInside (n : Nat) (s : State) : Host.Outcome State Fault Refusal := cutShort n s (step s)

end Sys2Proof.Machine
end

