-- ==== Sys2Proof/Safety.lean ====
section
/-! DEFINITION. What counts as a safe state and a safe trace, and the closed forms in which the
statements say what a reply, a sampled step or a received frame leaves. -/

namespace Sys2Proof.Machine

/-! ### Invariants -/

/-- The decoder registers: R138 (a) and (b), and every byte below `rx_len` has been written. -/
abbrev DecoderInv (s : State) : Prop :=
  s.rxLen ≤ s.cfg.rxCap ∧
  (s.rxState = .waitForStart → s.rxLen = 0) ∧
  (∀ i < s.rxLen, (Memory.read s.buf i).isSome = true)

/-- Both memories are in canonical form and hold no key outside their space (R50). -/
abbrev MemoryInv (s : State) : Prop :=
  Memory.wf s.buf ∧ (∀ cell ∈ s.buf, cell.1 < s.cfg.rxCap) ∧
  Memory.wf s.flash ∧ (∀ cell ∈ s.flash, cell.1 < 2 ^ 32)

/-- The machine's invariant: a legal parameter set (R9), legal decoder registers, canonical
memories. -/
abbrev Inv (s : State) : Prop := s.cfg.WellFormed ∧ DecoderInv s ∧ MemoryInv s

/-- An event that keeps the flash bootable and the bootloader intact (43_memory_commands.md R191,
R183): an erase is never aimed at the guard range; a row has `ROW_WORDS` words, carries the stub at
address 0, and is aimed at a guarded or reset-vector address only as the stub row that follows an
erase of the zero page (DEDUCED, assumption 17, unsafe); the hand-over goes to the application. -/
abbrev SafeEvent (c : Config) : Event → Prop
  | .wdt => True
  | .tx _ => True
  | .flashRead _ _ => True
  | .flashErase a => inGuard c a = false
  | .flashWriteRow a ws =>
    ws.length = c.rowWords ∧
    (a = 0#32 → ws.take 2 = [c.stubWord0, c.stubWord1]) ∧
    (writeRefused c a = true → a = 0#32 ∧ ws = stubRow c)
  | .startApp a => a = c.applicationStart

/-- Every event of the trace is safe. -/
abbrev SafeTrace (s : State) : Prop := ∀ e ∈ s.trace, SafeEvent s.cfg e

/-- The event is a hand-over. -/
def isStartApp : Event → Bool
  | .startApp _ => true
  | _ => false

/-- The event is a byte sent. -/
def isTx : Event → Bool
  | .tx _ => true
  | _ => false

/-- The event changes the flash. -/
def isMutation : Event → Bool
  | .flashErase _ => true
  | .flashWriteRow _ _ => true
  | _ => false

/-- `StartApp` is "emitted at most once per boot cycle" (R34): once in `Running`, not before. -/
abbrev HandOverOnce (s : State) : Prop :=
  s.trace.countP isStartApp = (if s.bootState = .running then 1 else 0)

/-! ### Frames -/

/-- The registers of 10_state.md and the parameters are the same, `sum1` and `sum2` apart. -/
abbrev SameButSums (s t : State) : Prop :=
  t.cfg = s.cfg ∧ t.bootState = s.bootState ∧ t.rxState = s.rxState ∧ t.rxLen = s.rxLen ∧
  t.buf = s.buf

/-- The registers of 10_state.md and the parameters are the same. -/
abbrev SameRegisters (s t : State) : Prop :=
  SameButSums s t ∧ t.sum1 = s.sum1 ∧ t.sum2 = s.sum2

/-- Two states whose decoders cannot be told apart (R139): the same decoder registers, and the same
capacity. -/
abbrev SameDecoder (s t : State) : Prop :=
  t.cfg.rxCap = s.cfg.rxCap ∧ t.rxState = s.rxState ∧ t.rxLen = s.rxLen ∧ t.buf = s.buf

/-- What every reset leaves in the registers (R240, R241): listening, an idle decoder, an unwritten
buffer, zero sums, an empty trace. -/
abbrev FreshRegisters (t : State) : Prop :=
  t.bootState = .listening ∧ t.rxState = .waitForStart ∧ t.rxLen = 0 ∧ t.buf = [] ∧
  t.sum1 = 0x00#8 ∧ t.sum2 = 0x00#8 ∧ t.trace = []

/-- The `la` addresses from `a` on and the `lb` addresses from `b` on have one in common, modulo
`2^32`. -/
abbrev SharesAddress (a la b lb : Nat) : Prop :=
  ∃ x < la, ∃ y < lb, (a + x) % 2 ^ 32 = (b + y) % 2 ^ 32

/-- What is known of the words of the flash other than the `n` words of the block at `base`: a word that
shares no address with the block is as before, one that shares an address is unknown. -/
abbrev OtherWordsKept (s t : State) (base n : Nat) : Prop :=
  ∀ a : Word, (∀ i < n, a.toNat ≠ (base + i * s.cfg.wordStep) % 2 ^ 32) →
    (¬ SharesAddress a.toNat s.cfg.wordStep base (n * s.cfg.wordStep) →
      flashKnown t a = flashKnown s a) ∧
    (SharesAddress a.toNat s.cfg.wordStep base (n * s.cfg.wordStep) → flashKnown t a = none)

/-! ### Closed forms -/

/-- The state once events have been appended to the trace. -/
def afterEvents (es : List Event) (s : State) : State := { s with trace := s.trace ++ es }

/-- The state once the reply `Frame(cmd, args)` has been sent: its wire bytes at the end of the
trace, and the sums that the last accumulation of R122 leaves: with latched `(c1, c2)`,
`sum1 = 2 * c1 + c2` and `sum2 = 2 * sum1`, modulo 256 (R123). -/
def afterReply (cmd : Byte) (args : List Byte) (s : State) : State :=
  { s with
    trace := s.trace ++ (frame cmd args).map Event.tx
    sum1 := 2#8 * (f16Sums (message cmd args)).1 + (f16Sums (message cmd args)).2
    sum2 := 2#8 * (2#8 * (f16Sums (message cmd args)).1 + (f16Sums (message cmd args)).2) }

/-- The sums that a reply leaves (R123): those of `afterReply`. -/
abbrev SumsAfterReply (cmd : Byte) (args : List Byte) (t : State) : Prop :=
  t.sum1 = 2#8 * (f16Sums (message cmd args)).1 + (f16Sums (message cmd args)).2 ∧
  t.sum2 = 2#8 * (2#8 * (f16Sums (message cmd args)).1 + (f16Sums (message cmd args)).2)

/-- The state once a frame with this body has been received, up to its end marker. -/
def afterBody (body : List Byte) (s : State) : State :=
  { s with
    rxState := .verbatim
    rxLen := body.length
    buf := Memory.writeBlock 1 s.buf 0 body }

/-- The message that one received byte hands to the dispatcher (R127: at most one). -/
def dispatchedMessage (b : Byte) (s : State) : Option (List Byte) :=
  if s.rxState = .verbatim ∧ b = endMarker then completedMessage s else none

/-- The environment delivers these bytes, one per step, with the abort signal held and the given tick
growth at each step. -/
def delivery (ticks : Nat) (bytes : List Byte) : List StepInput :=
  bytes.map (fun b => { tickAdvance := ticks, abort := true, rx := some b })

/-- The command bytes of 30_encoding.md R95. -/
def knownCommands : List Byte :=
  [0x00#8, 0x01#8, 0x02#8, 0x03#8, 0x04#8, 0x05#8, 0x06#8, 0x07#8, 0x10#8, 0x20#8, 0x21#8, 0x30#8,
    0x31#8, 0x40#8]

/-- The ten read commands of R157; the four others mutate. -/
def isRead : Instr → Bool
  | .readPlatform => true
  | .readVersion => true
  | .readRowLen => true
  | .readPageLen => true
  | .readProgLen => true
  | .readMaxProgSize => true
  | .readAppStartAddr => true
  | .readBootStartAddr => true
  | .erasePage _ => false
  | .readAddr _ => true
  | .readMax _ => true
  | .writeRow _ _ => false
  | .writeMax _ _ => false
  | .startApp => false

/-- The eight information commands of 42_dispatch_info_commands.md section 2. -/
def isInfo : Instr → Bool
  | .readPlatform => true
  | .readVersion => true
  | .readRowLen => true
  | .readPageLen => true
  | .readProgLen => true
  | .readMaxProgSize => true
  | .readAppStartAddr => true
  | .readBootStartAddr => true
  | .erasePage _ => false
  | .readAddr _ => false
  | .readMax _ => false
  | .writeRow _ _ => false
  | .writeMax _ _ => false
  | .startApp => false

end Sys2Proof.Machine
end

