-- ==== Sys2Proof/Certificates/Slice0/Obligations.lean ====
section
/-! DEFINITION. The statements for the provers. A statement rests on a numbered rule of spec/ only
where the rule is the source's own; where the spec marks a rule as its decision (D<n> of
92_eei_decisions.md) or as derived, the docstring says so. A clause about the fields `flash`,
`inputs`, `elapsed` or `freeCount` is about the model's own record of the environment. -/

open Sys2Proof Sys2Proof.Machine

/-! ### Encoding -/

/-- Wire bytes written out in 30_encoding.md section 8 and in the opcode table read as the commands
they stand for, under configuration T (the last four with escaped bytes). -/
def Obligations.SpecWireExamplesDecode : Prop :=
  decodeFrame Config.vectorT
    [0xF7#8, 0x01#8, 0x00#8, 0x01#8, 0x02#8, 0x04#8, 0x7F#8] = .ok .readVersion ∧
  decodeFrame Config.vectorT
    [0xF7#8, 0x01#8, 0x00#8, 0x40#8, 0x41#8, 0x43#8, 0x7F#8] = .ok .startApp ∧
  decodeFrame Config.vectorT
    [0xF7#8, 0x05#8, 0x00#8, 0x10#8, 0x00#8, 0x10#8, 0x00#8, 0x00#8, 0x25#8, 0xA3#8, 0x7F#8] =
      .ok (.erasePage 0x00001000#32) ∧
  decodeFrame Config.vectorT
    [0xF7#8, 0x05#8, 0x00#8, 0x20#8, 0xF6#8, 0x5F#8, 0x00#8, 0x00#8, 0x00#8, 0xA4#8, 0xBF#8,
      0x7F#8] = .ok (.readAddr 0x0000007F#32) ∧
  decodeFrame Config.vectorT
    [0xF7#8, 0x05#8, 0x00#8, 0x20#8, 0xF6#8, 0xD7#8, 0xF6#8, 0xD6#8, 0x00#8, 0x00#8, 0x12#8,
      0x81#8, 0x7F#8] = .ok (.readAddr 0x0000F6F7#32) ∧
  decodeFrame Config.vectorT
    [0xF7#8, 0x05#8, 0x00#8, 0x20#8, 0x5A#8, 0x00#8, 0x00#8, 0x00#8, 0xF6#8, 0x5F#8, 0x2B#8,
      0x7F#8] = .ok (.readAddr 0x0000005A#32) ∧
  decodeFrame Config.vectorT
    [0xF7#8, 0x01#8, 0x00#8, 0xF6#8, 0x5F#8, 0x80#8, 0x82#8, 0x7F#8] = .error .unknownCommand

/-- R12: the little-endian helpers, bit by bit and as numbers, and that each pair is inverse. -/
def Obligations.LittleEndianHelpersInverse : Prop :=
  (∀ v : BitVec 16, (le16 v).map BitVec.toNat = [v.toNat % 256, v.toNat / 256]) ∧
  (∀ v : Word, (le32 v).map BitVec.toNat =
    [v.toNat % 256, v.toNat / 256 % 256, v.toNat / 65536 % 256, v.toNat / 16777216]) ∧
  (∀ b0 b1 : Byte, u16 b0 b1 = b0.toNat + 256 * b1.toNat ∧
    le16 (BitVec.ofNat 16 (u16 b0 b1)) = [b0, b1]) ∧
  (∀ b0 b1 b2 b3 : Byte, (u32 b0 b1 b2 b3).toNat =
      b0.toNat + 256 * b1.toNat + 65536 * b2.toNat + 16777216 * b3.toNat ∧
    le32 (u32 b0 b1 b2 b3) = [b0, b1, b2, b3])

/-- The frame of every well-formed instruction, every operand at every value, reads back as that
instruction, as long as its length field fits 16 bits; where it does not (a write command of 16383
words, which R9 admits), the frame is rejected by its length field. (Derived: the round trip of
41_framing_codec.md section 1, marked there as derived, with the dispatcher's argument formats. The second
clause is the model's choice, assumption 18: the spec defines a frame only up to a length field of
`0xFFFF`, and the model cuts the field off.) -/
def Obligations.DecodeFrameInvertsEncode : Prop :=
  ∀ (c : Config) (i : Instr), c.WellFormed → i.wellFormed c = true →
    (1 + i.args.length ≤ 0xFFFF → decodeFrame c (encode i) = .ok i) ∧
    (0xFFFF < 1 + i.args.length → decodeFrame c (encode i) = .error .lengthMismatch)

/-- The other direction: a message the parser accepts is the one message of the instruction it gives,
and that instruction carries exactly the words its format asks for. So each message has one meaning
and nothing but a well-formed command gets past the checks. (Derived: the checks are the spec's
decisions D8, D9, D10.) -/
def Obligations.DecodeAcceptsOnlyOwnMessage : Prop :=
  ∀ (c : Config) (m : List Byte) (i : Instr), decode c m = .ok i →
    i.wellFormed c = true ∧ m = i.message

/-- R156: a message whose third byte is none of the 14 identifiers is ignored, whatever else it
holds; there are 242 such values. -/
def Obligations.UnknownCommandsIgnored : Prop :=
  ((List.range 256).filter (fun n => decide (BitVec.ofNat 8 n ∉ knownCommands))).length = 242 ∧
  ∀ (m : List Byte) (cmd : Byte) (s : State), m[2]? = some cmd → cmd ∉ knownCommands →
    dispatch m s = .next s

/-- A message shorter than 3 bytes, one whose length field disagrees with the bytes that follow it,
and one whose argument count is not the command's are ignored: the state is as it was. So is the
message of a command whose length does not fit the 16-bit length field. (Derived: the spec's decisions
D8, D9, D10; the last clause is the model's choice, assumption 18.) -/
def Obligations.MalformedMessagesIgnored : Prop :=
  (∀ (m : List Byte) (s : State), m.length < 3 → dispatch m s = .next s) ∧
  (∀ (l0 l1 : Byte) (rest : List Byte) (s : State), u16 l0 l1 ≠ rest.length →
    dispatch (l0 :: l1 :: rest) s = .next s) ∧
  (∀ (l0 l1 cmd : Byte) (args : List Byte) (s : State), need s.cfg cmd ≠ some args.length →
    dispatch (l0 :: l1 :: cmd :: args) s = .next s) ∧
  (∀ (s : State) (i : Instr), i.wellFormed s.cfg = true → 0xFFFF < 1 + i.args.length →
    dispatch i.message s = .next s)

/-- R154: the argument counts of the 14 commands and of no other byte, and that the dispatcher runs a
well-formed message as its command's rule. -/
def Obligations.DispatchRunsTheCommand : Prop :=
  (∀ (c : Config) (cmd : Byte), need c cmd =
    if cmd ∈ [0x00#8, 0x01#8, 0x02#8, 0x03#8, 0x04#8, 0x05#8, 0x06#8, 0x07#8, 0x40#8] then some 0
    else if cmd ∈ [0x10#8, 0x20#8, 0x21#8] then some 4
    else if cmd = 0x30#8 then some (4 + 4 * c.rowWords)
    else if cmd = 0x31#8 then some (4 + 4 * c.maxWords)
    else none) ∧
  ∀ (s : State) (i : Instr), i.wellFormed s.cfg = true → 1 + i.args.length ≤ 0xFFFF →
    dispatch i.message s = exec i s

/-! ### Checksum -/

/-- R114: the accumulator fed byte by byte from `AccReset()` and the batch function agree on every
byte list; for the empty list both are 0. -/
def Obligations.AccumulatorAgreesWithBatch : Prop :=
  (∀ (l : List Byte) (s : State),
    runningChecksum (l.foldl (fun s b => accumulate b s) (accReset s)) = f16 l) ∧
  (∀ s : State, runningChecksum (accReset s) = 0x0000#16) ∧ f16 [] = 0x0000#16

/-- R116: `Verify` on a body of at least 2 bytes compares the checksum of all but the last two bytes
with those two; and so it accepts a message with two bytes appended exactly when they are the
message's `sum1` and `sum2`. -/
def Obligations.VerifyComparesTheTrailer : Prop :=
  (∀ body : List Byte, 2 ≤ body.length →
    (verify body = true ↔
      (f16 (body.take (body.length - 2))).toNat =
        u16 (body.getD (body.length - 2) 0#8) (body.getD (body.length - 1) 0#8))) ∧
  (∀ (m : List Byte) (lo hi : Byte),
    verify (m ++ [lo, hi]) = true ↔ lo = (f16Sums m).1 ∧ hi = (f16Sums m).2)

/-- A change of exactly one byte always changes the checksum. (Derived: marked so in 40_checksum.md.) -/
def Obligations.OneByteChangeChangesChecksum : Prop :=
  ∀ (p q : List Byte) (b b' : Byte), b ≠ b' → f16 (p ++ b :: q) ≠ f16 (p ++ b' :: q)

/-! ### Encoder -/

/-- R120, R122: `Encode(cmd, args)` sends exactly the wire bytes of `Frame(cmd, args)`, leaves in
`sum1` and `sum2` what the procedure accumulates, and changes nothing else. -/
def Obligations.EncodeSendsOneFrame : Prop :=
  ∀ (cmd : Byte) (args : List Byte) (s : State), encodeReply cmd args s = afterReply cmd args s

/-- A frame begins with `START` and ends with `END`, holds neither in between, and has `2 + n` bytes
plus one for each body byte that is a marker. (Derived: marked so in 30_encoding.md section 2 and
41_framing_codec.md section 1.) -/
def Obligations.FrameHidesItsMarkers : Prop :=
  ∀ (cmd : Byte) (args : List Byte), ∃ inner : List Byte,
    frame cmd args = startMarker :: (inner ++ [endMarker]) ∧
    startMarker ∉ inner ∧ endMarker ∉ inner ∧
    (frame cmd args).length = 2 + (5 + args.length) + (frameBody cmd args).countP isMarker

/-! ### Decoder -/

/-- R128, R129, R130: `START` opens a frame from `WaitForStart`; any other byte there changes no
register and emits nothing; `ESC` in `Verbatim` enters `Escaped` and stores nothing. -/
def Obligations.DecoderOpensIgnoresAndEscapes : Prop :=
  (∀ s : State, s.rxState = .waitForStart →
    decodeStep 0xF7#8 s = .next { s with rxState := .verbatim, rxLen := 0 }) ∧
  (∀ (s : State) (b : Byte), s.rxState = .waitForStart → b ≠ 0xF7#8 → decodeStep b s = .next s) ∧
  (∀ s : State, s.rxState = .verbatim →
    decodeStep 0xF6#8 s = .next { s with rxState := .escaped })

/-- A data byte (in `Verbatim` any byte but `ESC` and `END`, `START` included; in `Escaped` any byte,
XORed with `0x20`) is stored at index `rx_len` and counted, no other index changes, and the decoder
is in `Verbatim`; with the buffer full it is discarded and the decoder reset. Nothing else changes.
(Derived: the spec's decisions D5, D6.) -/
def Obligations.DataByteStoredOrOverflows : Prop :=
  ∀ (s : State) (b d : Byte),
    ((s.rxState = .verbatim ∧ b ≠ 0xF6#8 ∧ b ≠ 0x7F#8 ∧ d = b) ∨
      (s.rxState = .escaped ∧ d = b ^^^ 0x20#8)) →
    (s.rxLen = s.cfg.rxCap →
      decodeStep b s = .next { s with rxLen := 0, rxState := .waitForStart }) ∧
    (s.rxLen ≠ s.cfg.rxCap →
      ∃ t, decodeStep b s = .next t ∧
        Memory.read t.buf s.rxLen = some d ∧
        (∀ j, j ≠ s.rxLen → Memory.read t.buf j = Memory.read s.buf j) ∧
        t = { s with buf := t.buf, rxLen := s.rxLen + 1, rxState := .verbatim })

/-- R133, R135: at the end marker a body of fewer than 2 bytes, and one whose checksum does not match
its last two bytes, is dropped; otherwise the message without them is dispatched; and whatever the
dispatcher did, the decoder is afterwards in (`WaitForStart`, `rx_len = 0`). -/
def Obligations.EndMarkerCompletesTheFrame : Prop :=
  (∀ s : State, s.rxState = .verbatim → s.rxLen < 2 →
    decodeStep 0x7F#8 s = .next { s with rxLen := 0, rxState := .waitForStart }) ∧
  (∀ s : State, s.rxState = .verbatim → 2 ≤ s.rxLen →
    (f16 ((bufBody s).take (s.rxLen - 2))).toNat ≠
      u16 (bufByte s (s.rxLen - 2)) (bufByte s (s.rxLen - 1)) →
    decodeStep 0x7F#8 s = .next { s with rxLen := 0, rxState := .waitForStart }) ∧
  (∀ s : State, s.rxState = .verbatim → 2 ≤ s.rxLen →
    (f16 ((bufBody s).take (s.rxLen - 2))).toNat =
      u16 (bufByte s (s.rxLen - 2)) (bufByte s (s.rxLen - 1)) →
    ∃ t, dispatch ((bufBody s).take (s.rxLen - 2)) s = .next t ∧
      decodeStep 0x7F#8 s = .next { t with rxLen := 0, rxState := .waitForStart })

/-- The round trip on the machine: fed the wire bytes of `Frame(cmd, args)` from `WaitForStart`, a
decoder whose buffer can hold the body hands the dispatcher exactly the message, and ends idle.
(Derived: marked so in 41_framing_codec.md section 1; the capacity condition is the spec's own.) -/
def Obligations.FrameReachesTheDispatcher : Prop :=
  ∀ (cmd : Byte) (args : List Byte) (s : State),
    s.bootState = .listening → s.rxState = .waitForStart → 5 + args.length ≤ s.cfg.rxCap →
    ∃ t, dispatch (message cmd args) (afterBody (frameBody cmd args) s) = .next t ∧
      decodeRun (frame cmd args) s = .next { t with rxLen := 0, rxState := .waitForStart }

/-- A frame whose body outgrows the buffer never reaches the dispatcher. After `START` and the escaped
wire bytes of any body longer than `RX_CAP`, and so after its end marker, the decoder is idle and nothing
has been emitted; the same after `START` and one raw data byte too many, a raw `START` among them
included. (Derived: the exact boundary is the spec's decision D6.) -/
def Obligations.OversizeBodyResetsTheDecoder : Prop :=
  (∀ (s : State) (body : List Byte),
    s.bootState = .listening → s.rxState = .waitForStart → s.cfg.rxCap < body.length →
    ∃ t, t = { s with buf := t.buf, rxLen := 0, rxState := .waitForStart } ∧
      decodeRun (0xF7#8 :: body.flatMap escape) s = .next t ∧
      decodeRun (0xF7#8 :: (body.flatMap escape ++ [0x7F#8])) s = .next t) ∧
  (∀ (s : State) (ds : List Byte),
    s.bootState = .listening → s.rxState = .waitForStart → ds.length = s.cfg.rxCap + 1 →
    (∀ d ∈ ds, d ≠ 0xF6#8 ∧ d ≠ 0x7F#8) →
    ∃ t, decodeRun (0xF7#8 :: ds) s = .next t ∧
      t = { s with buf := t.buf, rxLen := 0, rxState := .waitForStart })

/-- R68: a byte after which the trace or the mode is not what it was is the end marker of a frame
whose checksum has matched. -/
def Obligations.NoEffectBeforeVerifiedEnd : Prop :=
  ∀ (b : Byte) (s t : State), decodeStep b s = .next t →
    (t.trace ≠ s.trace ∨ t.bootState ≠ s.bootState ∨ t.flash ≠ s.flash) →
    s.rxState = .verbatim ∧ b = 0x7F#8 ∧ 2 ≤ s.rxLen ∧
      (f16 ((bufBody s).take (s.rxLen - 2))).toNat =
        u16 (bufByte s (s.rxLen - 2)) (bufByte s (s.rxLen - 1))

/-- The decoder depends on its own registers, the capacity and the byte alone: two states that agree
on them hand over the same message and agree on them again, whatever their sums, flash, tick count,
trace or other parameters. (Derived: marked so in 41_framing_codec.md section 2.) -/
def Obligations.DecoderDependsOnItsRegistersOnly : Prop :=
  ∀ (b : Byte) (s s' t t' : State), SameDecoder s s' →
    decodeStep b s = .next t → decodeStep b s' = .next t' →
    SameDecoder t t' ∧ dispatchedMessage b s = dispatchedMessage b s'

/-! ### Information commands -/

/-- The two string commands reply with the configured bytes and a terminating `0x00`, and change
nothing but the sums. (Derived: the spec's decisions D11, D13.) -/
def Obligations.StringCommandsReply : Prop :=
  ∀ s : State,
    exec .readPlatform s = .next (afterReply 0x00#8 (s.cfg.platformString ++ [0x00#8]) s) ∧
    exec .readVersion s = .next (afterReply 0x01#8 (s.cfg.versionString ++ [0x00#8]) s)

/-- The three geometry commands reply with row length, page length and maximum transaction size as
16 bits, low byte first, and change nothing but the sums. (Derived: the spec's decisions D11, D14,
D15.) -/
def Obligations.GeometryCommandsReply16Bits : Prop :=
  ∀ s : State, s.cfg.WellFormed →
    exec .readRowLen s = .next (afterReply 0x02#8
      [BitVec.ofNat 8 (s.cfg.rowWords % 256), BitVec.ofNat 8 (s.cfg.rowWords / 256)] s) ∧
    exec .readPageLen s = .next (afterReply 0x03#8
      [BitVec.ofNat 8 (s.cfg.pageWords % 256), BitVec.ofNat 8 (s.cfg.pageWords / 256)] s) ∧
    exec .readMaxProgSize s = .next (afterReply 0x05#8
      [BitVec.ofNat 8 (s.cfg.maxWords % 256), BitVec.ofNat 8 (s.cfg.maxWords / 256)] s)

/-- R162, R164, R165: program length, application start and bootloader start are sent as 32 bits, low
byte first; nothing but the sums changes. -/
def Obligations.ConstantCommandsReply32Bits : Prop :=
  ∀ s : State,
    exec .readProgLen s = .next (afterReply 0x04#8 (le32 s.cfg.progLength) s) ∧
    exec .readAppStartAddr s = .next (afterReply 0x06#8 (le32 s.cfg.applicationStart) s) ∧
    exec .readBootStartAddr s = .next (afterReply 0x07#8 (le32 s.cfg.bootloaderStart) s)

/-- An information command always yields the same reply bytes: two states with the same parameters
append the same events, one frame of `Tx` bytes. (Derived: marked so in
42_dispatch_info_commands.md.) -/
def Obligations.InfoRepliesAreIdempotent : Prop :=
  ∀ i : Instr, isInfo i = true → ∀ c : Config, ∃ args : List Byte, ∀ s : State, s.cfg = c →
    ∃ t, exec i s = .next t ∧ t.trace = s.trace ++ (frame i.cmd args).map Event.tx ∧
      SameButSums s t ∧ t.flash = s.flash

/-! ### Memory commands -/

/-- `CMD_ERASE_PAGE`: refused in the guard range, with no effect; elsewhere one `FlashErase` of the
address as received, followed in the zero page by the stub row at address 0. No register changes, no
reply. (Derived: the spec's decisions D21, D24.) -/
def Obligations.ErasePageEffect : Prop :=
  ∀ (A : Word) (s : State),
    (s.cfg.bootloaderStart ≤ A ∧ A < s.cfg.applicationStart → exec (.erasePage A) s = .next s) ∧
    (¬ (s.cfg.bootloaderStart ≤ A ∧ A < s.cfg.applicationStart) → s.cfg.pageSpan ≤ A.toNat →
      ∃ t, exec (.erasePage A) s = .next t ∧ t.trace = s.trace ++ [.flashErase A] ∧
        SameRegisters s t) ∧
    (¬ (s.cfg.bootloaderStart ≤ A ∧ A < s.cfg.applicationStart) → A.toNat < s.cfg.pageSpan →
      ∃ t, exec (.erasePage A) s = .next t ∧
        t.trace = s.trace ++ [.flashErase A, .flashWriteRow 0#32
          ([s.cfg.stubWord0, s.cfg.stubWord1] ++
            List.replicate (s.cfg.rowWords - 2) s.cfg.erasedWord)] ∧
        SameRegisters s t)

/-- `CMD_READ_ADDR`: one word is read at the address as received, never refused, and sent low byte
first; the word is the known one where the flash record knows it, a free value otherwise. The sums are
left as after any reply. (Derived: the spec's decisions D18, D32; the record is the model's, assumptions
4 and 5.) -/
def Obligations.ReadAddrEffect : Prop :=
  ∀ (A : Word) (s : State), ∃ (v : Word) (t : State),
    exec (.readAddr A) s = .next t ∧
    t.trace = s.trace ++ [.flashRead A v] ++ (frame 0x20#8 (le32 v)).map Event.tx ∧
    (∀ w, flashKnown s A = some w → v = w) ∧
    SumsAfterReply 0x20#8 (le32 v) t ∧
    SameButSums s t ∧ t.flash = s.flash ∧ t.inputs = s.inputs ∧ t.elapsed = s.elapsed

/-- `CMD_READ_MAX`: `MAX_WORDS` reads in ascending order, the sum modulo `2^32`, all before the one
reply, which carries the words low byte first. The sums are left as after any reply. (Derived: the
spec's decisions D17, D18, D32; the record of known words is the model's, assumptions 4 and 5.) -/
def Obligations.ReadMaxEffect : Prop :=
  ∀ (A : Word) (s : State), ∃ (vs : List Word) (t : State),
    exec (.readMax A) s = .next t ∧ vs.length = s.cfg.maxWords ∧
    t.trace = s.trace ++
      (List.range s.cfg.maxWords).map (fun i =>
        Event.flashRead (BitVec.ofNat 32 (A.toNat + i * s.cfg.wordStep)) (vs.getD i 0#32)) ++
      (frame 0x21#8 (bytesOf vs)).map Event.tx ∧
    (∀ i < s.cfg.maxWords, ∀ w,
      flashKnown s (BitVec.ofNat 32 (A.toNat + i * s.cfg.wordStep)) = some w →
      vs.getD i 0#32 = w) ∧
    SumsAfterReply 0x21#8 (bytesOf vs) t ∧
    SameButSums s t ∧ t.flash = s.flash ∧ t.inputs = s.inputs ∧ t.elapsed = s.elapsed

/-- R187: `CMD_WRITE_ROW` is refused in the guard range and below `IVT_BASE`, with no effect;
otherwise one `FlashWriteRow` of the address as received, with the words after `ForceStub`. No
register changes, no reply. -/
def Obligations.WriteRowEffect : Prop :=
  ∀ (A : Word) (words : List Word) (s : State),
    ((s.cfg.bootloaderStart ≤ A ∧ A < s.cfg.applicationStart) ∨ A < s.cfg.ivtBase →
      exec (.writeRow A words) s = .next s) ∧
    (¬ ((s.cfg.bootloaderStart ≤ A ∧ A < s.cfg.applicationStart) ∨ A < s.cfg.ivtBase) →
      ∃ t, exec (.writeRow A words) s = .next t ∧
        t.trace = s.trace ++ [.flashWriteRow A (forceStub s.cfg A words)] ∧ SameRegisters s t)

/-- `CMD_WRITE_MAX`: refused as a whole where any of its row addresses is refused; otherwise one
`FlashWriteRow` a row, ascending, with that row's words after `ForceStub`. No register changes, no
reply. Row `k` carries the words `k * ROW_WORDS` and on. (Derived: 43_memory_commands.md section 4, the
spec's decision D23.) -/
def Obligations.WriteMaxEffect : Prop :=
  ∀ (A : Word) (words : List Word) (s : State),
    ((∃ k < s.cfg.maxRows, writeRefused s.cfg (rowAddr s.cfg A k) = true) →
      exec (.writeMax A words) s = .next s) ∧
    ((∀ k < s.cfg.maxRows, writeRefused s.cfg (rowAddr s.cfg A k) = false) →
      ∃ t, exec (.writeMax A words) s = .next t ∧
        t.trace = s.trace ++ (List.range s.cfg.maxRows).map (fun k =>
          Event.flashWriteRow (rowAddr s.cfg A k)
            (forceStub s.cfg (rowAddr s.cfg A k) (rowWordsAt s.cfg words k))) ∧
        SameRegisters s t) ∧
    (∀ k i, (rowWordsAt s.cfg words k)[i]? =
      if i < s.cfg.rowWords then words[k * s.cfg.rowWords + i]? else none)

/-- `ForceStub`: at row address 0 the first two words are the stub's and the rest as supplied; at any
other address all are as supplied; the number of words stays. (Derived: the spec's decision D22.) -/
def Obligations.ForceStubReplacesTwoWords : Prop :=
  ∀ (c : Config) (ra : Word) (ws : List Word), 2 ≤ ws.length →
    (forceStub c ra ws).length = ws.length ∧
    (ra ≠ 0#32 → forceStub c ra ws = ws) ∧
    (ra = 0#32 → (forceStub c ra ws)[0]? = some c.stubWord0 ∧
      (forceStub c ra ws)[1]? = some c.stubWord1 ∧
      ∀ j, 2 ≤ j → (forceStub c ra ws)[j]? = ws[j]?)

/-- The predicates of the address-range guard as unsigned comparisons. (Derived: the spec's decision
D24.) -/
def Obligations.GuardComparesUnsigned : Prop :=
  ∀ (c : Config) (a : Word),
    (inGuard c a = true ↔
      c.bootloaderStart.toNat ≤ a.toNat ∧ a.toNat < c.applicationStart.toNat) ∧
    (belowIvt c a = true ↔ a.toNat < c.ivtBase.toNat) ∧
    (eraseRefused c a = true ↔ inGuard c a = true) ∧
    (writeRefused c a = true ↔ inGuard c a = true ∨ belowIvt c a = true)

/-- Word and row addresses are sums modulo `2^32`. (Derived: the spec's decisions D17, D20.) -/
def Obligations.AddressSumsWrap : Prop :=
  ∀ (c : Config) (A : Word) (i : Nat),
    (wordAddr c A i).toNat = (A.toNat + i * c.wordStep) % 2 ^ 32 ∧
    (rowAddr c A i).toNat = (A.toNat + i * (c.rowWords * c.wordStep)) % 2 ^ 32

/-- R65: a refused erase or write has no effect whatever, and a maximum block with one refused row is
refused before its first row. -/
def Obligations.RefusedCommandsHaveNoEffect : Prop :=
  ∀ (A : Word) (words : List Word) (s : State),
    (eraseRefused s.cfg A = true → exec (.erasePage A) s = .next s) ∧
    (writeRefused s.cfg A = true → exec (.writeRow A words) s = .next s) ∧
    (∀ k < s.cfg.maxRows, writeRefused s.cfg (rowAddr s.cfg A k) = true →
      exec (.writeMax A words) s = .next s)

/-- Read-back after a row write: an executed `CMD_WRITE_ROW` at a row-aligned address leaves its words
(after `ForceStub`) at their addresses, modulo `2^32`; every other word of the flash is as it was, but
that one which shares an address with the row is open; the other fields of the record are as they were.
(Derived: the minimal flash model is the spec's decision D37; rows at multiples of `ROW_SPAN` and the
open words are the model's choice, assumption 4.) -/
def Obligations.WriteRowReadsBack : Prop :=
  ∀ (A : Word) (words : List Word) (s : State), s.cfg.WellFormed →
    words.length = s.cfg.rowWords → writeRefused s.cfg A = false →
    A.toNat % s.cfg.rowSpan = 0 →
    ∃ t, exec (.writeRow A words) s = .next t ∧
      (∀ i < s.cfg.rowWords,
        flashKnown t (wordAddr s.cfg A i) = (forceStub s.cfg A words)[i]?) ∧
      OtherWordsKept s t A.toNat s.cfg.rowWords ∧
      t.inputs = s.inputs ∧ t.elapsed = s.elapsed ∧ t.freeCount = s.freeCount

/-- A `CMD_WRITE_ROW` at an address that is no row boundary leaves open every word that shares an address
with the row that contains the address or with the one after it, and every other word as it was.
(Derived: 93_implementation_defined.md U6; which rows it might touch is the model's choice, assumption
4.) -/
def Obligations.UnalignedWriteRowLeavesWordsOpen : Prop :=
  ∀ (A : Word) (words : List Word) (s : State), s.cfg.WellFormed →
    writeRefused s.cfg A = false → A.toNat % s.cfg.rowSpan ≠ 0 →
    ∃ t, exec (.writeRow A words) s = .next t ∧
      (∀ a : Word, SharesAddress a.toNat s.cfg.wordStep
        (A.toNat / s.cfg.rowSpan * s.cfg.rowSpan) (2 * s.cfg.rowSpan) → flashKnown t a = none) ∧
      (∀ a : Word, ¬ SharesAddress a.toNat s.cfg.wordStep
        (A.toNat / s.cfg.rowSpan * s.cfg.rowSpan) (2 * s.cfg.rowSpan) →
        flashKnown t a = flashKnown s a) ∧
      t.inputs = s.inputs ∧ t.elapsed = s.elapsed ∧ t.freeCount = s.freeCount

/-- Read-back after a maximum block: an executed `CMD_WRITE_MAX` whose row addresses are row boundaries,
a block that runs past the end of the address space included, leaves each row's words (after `ForceStub`,
so with the stub in a row that lands on 0) at their addresses; every other word is as it was, but that
one which shares an address with the block is open. (Derived: the spec's decisions D17, D23, D37; rows
at multiples of `ROW_SPAN` and the open words are the model's choice, assumption 4.) -/
def Obligations.WriteMaxReadsBack : Prop :=
  ∀ (A : Word) (words : List Word) (s : State), s.cfg.WellFormed →
    words.length = s.cfg.maxWords →
    (∀ k < s.cfg.maxRows, writeRefused s.cfg (rowAddr s.cfg A k) = false) →
    (∀ k < s.cfg.maxRows, (rowAddr s.cfg A k).toNat % s.cfg.rowSpan = 0) →
    ∃ t, exec (.writeMax A words) s = .next t ∧
      (∀ k < s.cfg.maxRows, ∀ i < s.cfg.rowWords,
        flashKnown t (wordAddr s.cfg (rowAddr s.cfg A k) i) =
          (forceStub s.cfg (rowAddr s.cfg A k) (rowWordsAt s.cfg words k))[i]?) ∧
      OtherWordsKept s t A.toNat s.cfg.maxWords ∧
      t.inputs = s.inputs ∧ t.elapsed = s.elapsed ∧ t.freeCount = s.freeCount

/-- A `CMD_WRITE_MAX` at any address leaves alone every word that shares no address with the two rows
that each of its row writes might touch. (Derived: 93_implementation_defined.md U6; the model's choice,
assumption 4.) -/
def Obligations.WriteMaxLeavesOtherRowsAlone : Prop :=
  ∀ (A : Word) (words : List Word) (s : State), s.cfg.WellFormed →
    words.length = s.cfg.maxWords →
    ∃ t, exec (.writeMax A words) s = .next t ∧
      (∀ a : Word, (∀ k < s.cfg.maxRows, ¬ SharesAddress a.toNat s.cfg.wordStep
        ((rowAddr s.cfg A k).toNat / s.cfg.rowSpan * s.cfg.rowSpan) (2 * s.cfg.rowSpan)) →
        flashKnown t a = flashKnown s a) ∧
      t.inputs = s.inputs ∧ t.elapsed = s.elapsed ∧ t.freeCount = s.freeCount

/-- Read-back after an erase: each of the `PAGE_WORDS` words of the page that contains the address, modulo
`2^32`, holds the erased value, the two stub words of an erased zero page apart; every other word of the
flash is as it was, but that one which shares an address with the page is open. (Derived: the minimal
flash model is the spec's decision D37; pages at multiples of `PAGE_SPAN` and the open words are the
model's choice, assumption 4.) -/
def Obligations.ErasePageReadsBack : Prop :=
  ∀ (A : Word) (s : State), s.cfg.WellFormed → eraseRefused s.cfg A = false →
    ∃ t, exec (.erasePage A) s = .next t ∧
      (∀ i < s.cfg.pageWords,
        flashKnown t (BitVec.ofNat 32 (pageBase s.cfg A + i * s.cfg.wordStep)) =
          some (if A.toNat < s.cfg.pageSpan ∧ i = 0 then s.cfg.stubWord0
            else if A.toNat < s.cfg.pageSpan ∧ i = 1 then s.cfg.stubWord1
            else s.cfg.erasedWord)) ∧
      OtherWordsKept s t (pageBase s.cfg A) s.cfg.pageWords ∧
      t.inputs = s.inputs ∧ t.elapsed = s.elapsed ∧ t.freeCount = s.freeCount

/-- No mutating command sends a reply or touches the sums, executed or refused. (Derived: the spec's
decision D12.) -/
def Obligations.MutatingCommandsNeverReply : Prop :=
  ∀ (i : Instr) (s : State), isRead i = false →
    ∃ (t : State) (es : List Event), exec i s = .next t ∧ t.trace = s.trace ++ es ∧
      es.countP isTx = 0 ∧ t.sum1 = s.sum1 ∧ t.sum2 = s.sum2

/-- No read command, the guard range included, changes the flash, and each sends exactly one frame
with its own command byte as the last thing it does. (Derived: 20_memory.md section 4; the echoed
command byte is the spec's decision D11.) -/
def Obligations.ReadCommandsReplyOnceAndMutateNothing : Prop :=
  ∀ (i : Instr) (s : State), isRead i = true →
    ∃ (t : State) (reads : List Event) (args : List Byte),
      exec i s = .next t ∧
      t.trace = s.trace ++ reads ++ (frame i.cmd args).map Event.tx ∧
      reads.countP isTx = 0 ∧ reads.countP isMutation = 0 ∧ reads.countP isStartApp = 0 ∧
      t.flash = s.flash

/-! ### Boot policy and the control loop -/

/-- R203: in `Listening`, (a) where the tick answer exceeds the threshold and the abort signal is not
asserted the step hands over to the application, takes no byte and keeps the decoder's registers,
and no further step follows, and (b) `CMD_START_APP` hands over whatever the tick count and the abort signal. -/
def Obligations.WindowExpiryAndStartCommandHandOver : Prop :=
  (∀ s : State, s.cfg.WellFormed → s.bootState = .listening →
    s.cfg.bootThreshold < s.elapsed + (nextInput s).tickAdvance → (nextInput s).abort = false →
    ∃ t, step s = .next t ∧ t.bootState = .running ∧
      t.trace = s.trace ++ [.wdt, .startApp s.cfg.applicationStart] ∧
      t.cfg = s.cfg ∧ SameDecoder s t ∧ t.sum1 = s.sum1 ∧ t.sum2 = s.sum2 ∧
      (∀ u, step t ≠ .next u)) ∧
  (∀ s : State, ∃ t, exec .startApp s = .next t ∧ t.bootState = .running ∧
    t.trace = s.trace ++ [.startApp s.cfg.applicationStart])

/-- R207: while the abort signal is asserted the window does not close, however large the tick answer:
the step takes its byte and goes on; with the signal false past the threshold it goes to `Running`. -/
def Obligations.AbortHoldsTheWindowOpen : Prop :=
  (∀ s : State, s.cfg.WellFormed → s.bootState = .listening → (nextInput s).abort = true →
    step s = (match (nextInput s).rx with
      | none => .next (sampled s)
      | some b => decodeStep b (sampled s)) ∧
    (sampled s).bootState = .listening) ∧
  (∀ s : State, s.cfg.WellFormed → s.bootState = .listening → (nextInput s).abort = false →
    s.cfg.bootThreshold < s.elapsed + (nextInput s).tickAdvance →
    ∃ t, step s = .next t ∧ t.bootState = .running)

/-- Inside the window a step without a byte emits `Wdt` and changes no register; one with a byte runs
the decoder on it, in the state with the watchdog serviced and the answers taken. (Derived: one byte
a step, after the decision, is the spec's decision D3, D4.) -/
def Obligations.OpenWindowTakesAtMostOneByte : Prop :=
  ∀ s : State, s.cfg.WellFormed → s.bootState = .listening →
    s.elapsed + (nextInput s).tickAdvance ≤ s.cfg.bootThreshold →
    ((nextInput s).rx = none → ∃ t, step s = .next t ∧ t.trace = s.trace ++ [.wdt] ∧
      SameRegisters s t ∧ t.flash = s.flash) ∧
    (∀ b, (nextInput s).rx = some b → ∃ u, step s = decodeStep b u ∧
      u.trace = s.trace ++ [.wdt] ∧ SameRegisters s u ∧ u.flash = s.flash ∧
      u.elapsed = s.elapsed + (nextInput s).tickAdvance ∧ u.inputs = s.inputs.tail)

/-- `CMD_START_APP` writes `boot_state`, emits one `StartApp(APPLICATION_START)`, and changes nothing
else. (Derived: the address is the spec's decision D25.) -/
def Obligations.StartAppEffect : Prop :=
  ∀ s : State, exec .startApp s =
    .next { s with bootState := .running, trace := s.trace ++ [.startApp s.cfg.applicationStart] }

/-- `Running` is terminal: no step is enabled. (Derived: the spec's decision D31; the fault is the
model's name for it, assumption 8.) -/
def Obligations.RunningHasNoStep : Prop :=
  ∀ s : State, s.cfg.WellFormed → s.bootState = .running → step s = .fault .noStepEnabled

/-- A listening step always completes, whatever the environment answers and whatever bytes arrive: no
operation blocks and no message stops the machine. (Derived: the spec's decision D39.) -/
def Obligations.ListeningStepCompletes : Prop :=
  ∀ s : State, s.cfg.WellFormed → s.bootState = .listening → ∃ t, step s = .next t

/-- The mode leaves `Listening` in two ways only: the window has expired, or the byte taken completes
a verified frame whose message is `CMD_START_APP`. (Derived: 60_exceptions.md section 5.) -/
def Obligations.OnlyExpiryOrStartCommandLeavesListening : Prop :=
  ∀ s t : State, step s = .next t →
    s.bootState = .listening ∧
    (t.bootState = .running →
      (s.cfg.bootThreshold < s.elapsed + (nextInput s).tickAdvance ∧
        (nextInput s).abort = false) ∨
      ((nextInput s).rx = some 0x7F#8 ∧ s.rxState = .verbatim ∧
        completedMessage s = some [0x01#8, 0x00#8, 0x40#8]))

/-- Every step begins with one `Wdt` and emits no other. (Derived: the spec's decision D40.) -/
def Obligations.OneWatchdogServicePerStep : Prop :=
  ∀ s t : State, step s = .next t →
    ∃ es : List Event, t.trace = s.trace ++ Event.wdt :: es ∧ Event.wdt ∉ es

/-- A parameter set that fails R9 is refused. (Derived: the constraints are the spec's decision D38.) -/
def Obligations.IllFormedConfigurationRefused : Prop :=
  ∀ s : State, ¬ s.cfg.WellFormed → step s = .refused .illFormedConfiguration

/-- R29: no rule writes the guard constants (or any parameter), and reset does not change them. -/
def Obligations.ParametersNeverChange : Prop :=
  (∀ s t : State, step s = .next t → t.cfg = s.cfg) ∧ (∀ s : State, (State.reboot s).cfg = s.cfg)

/-- A step runs the decoded instruction: where the end marker of a verified frame is taken in an open
window and its message is a well-formed command, the step is that command's effect, in the state with
the watchdog serviced and the answers taken, and then the decoder is idle. -/
def Obligations.StepRunsDecodedInstruction : Prop :=
  ∀ (s : State) (i : Instr) (m : List Byte), s.cfg.WellFormed → s.bootState = .listening →
    windowExpired s.cfg (s.elapsed + (nextInput s).tickAdvance) (nextInput s).abort = false →
    (nextInput s).rx = some endMarker → s.rxState = .verbatim →
    completedMessage s = some m → decode s.cfg m = .ok i →
    step s = onNext decoderIdle (exec i (sampled s))

/-- End to end: from an idle, listening block, the wire bytes of a well-formed instruction, delivered
one per step with the abort signal held, run that instruction: the steps reach the state in which the
instruction's own rule is applied to a state with the same parameters, mode, sums and flash, whose
trace has grown by one `Wdt` a byte. (Derived: 41_framing_codec.md, 42_dispatch_info_commands.md and
44_boot_policy.md together.) -/
def Obligations.DeliveredFrameRunsItsInstruction : Prop :=
  ∀ (s : State) (i : Instr) (dt : Nat) (rest : List StepInput), s.cfg.WellFormed →
    i.wellFormed s.cfg = true → 1 + i.args.length ≤ 0xFFFF →
    s.bootState = .listening → s.rxState = .waitForStart →
    s.inputs = delivery dt (encode i) ++ rest →
    ∃ u t : State,
      u.cfg = s.cfg ∧ u.bootState = .listening ∧ u.sum1 = s.sum1 ∧ u.sum2 = s.sum2 ∧
      u.flash = s.flash ∧ u.freeCount = s.freeCount ∧ u.inputs = rest ∧
      u.elapsed = s.elapsed + (encode i).length * dt ∧
      u.trace = s.trace ++ List.replicate (encode i).length Event.wdt ∧
      exec i u = .next t ∧
      Host.Core.run Sys2Proof.core (encode i).length s =
        .next { t with rxLen := 0, rxState := .waitForStart }

/-! ### Whole-machine rules -/

/-- A command touches no decoder register and no parameter, sets the mode only if it is
`CMD_START_APP`, and only adds to the trace; and it always completes. (Derived:
42_dispatch_info_commands.md section 1; `inputs` and `elapsed` are the model's own.) -/
def Obligations.CommandsTouchOnlyTheirOwnState : Prop :=
  ∀ (i : Instr) (s : State), ∃ (t : State) (es : List Event),
    exec i s = .next t ∧ t.trace = s.trace ++ es ∧
    t.cfg = s.cfg ∧ t.rxState = s.rxState ∧ t.rxLen = s.rxLen ∧ t.buf = s.buf ∧
    t.inputs = s.inputs ∧ t.elapsed = s.elapsed ∧
    (i ≠ .startApp → t.bootState = s.bootState ∧ es.countP isStartApp = 0)

/-- What reset leaves in the registers the source speaks of, for any parameter set: listening, an idle
decoder, no value in the buffer, zero sums, an empty trace. (Derived: the spec's decision D30 and its
own inferences; the parameters of `State.reset` are assumption 1.) -/
def Obligations.ResetLeavesIdleListeningBlock : Prop :=
  (∀ c : Config,
    (State.resetWith c).cfg = c ∧ (State.resetWith c).bootState = .listening ∧
    (State.resetWith c).rxState = .waitForStart ∧ (State.resetWith c).rxLen = 0 ∧
    (∀ j, Memory.read (State.resetWith c).buf j = none) ∧
    (State.resetWith c).sum1 = 0x00#8 ∧ (State.resetWith c).sum2 = 0x00#8 ∧
    (State.resetWith c).trace = []) ∧
  State.reset = State.resetWith Config.vectorT

/-- A reset between two steps of a boot cycle, in whatever state: the registers take their reset values
and the trace starts empty, while the parameters and the flash record stay. (Derived: marked so in
10_state.md section 11 and 70_reset_and_hazards.md section 1; the reset values are the spec's decision
D30. The model's choices: the operation itself and that the tick count restarts at 0, assumption 14; that
the record also outlives a stay in `Running`, assumption 22.) -/
def Obligations.RebootKeepsFlashAndParameters : Prop :=
  ∀ s : State,
    (State.reboot s).cfg = s.cfg ∧ (State.reboot s).flash = s.flash ∧
    (State.reboot s).bootState = .listening ∧ (State.reboot s).rxState = .waitForStart ∧
    (State.reboot s).rxLen = 0 ∧ (State.reboot s).sum1 = 0x00#8 ∧
    (State.reboot s).sum2 = 0x00#8 ∧ (State.reboot s).trace = [] ∧ (State.reboot s).elapsed = 0 ∧
    (Inv s → Inv (State.reboot s))

/-- A reset inside a step, after any number `n` of its events: the registers are those of any reset, the
parameters stay, and the flash is as the first `n` events left it: as before the step for `n = 0`, as
after it where all its events have happened. (Derived: marked so in 70_reset_and_hazards.md R242; that a
reset inside a step is an operation of its own and lands between two events is the model's choice,
assumption 14.) -/
def Obligations.ResetInsideStepKeepsFlash : Prop :=
  ∀ (n : Nat) (s t : State), step s = .next t →
    ∃ (es : List Event) (u : State), t.trace = s.trace ++ es ∧ resetInside n s = .next u ∧
      u.flash = flashAfterEvents s.cfg (es.take n) s.flash ∧
      (n = 0 → u.flash = s.flash) ∧ (es.length ≤ n → u.flash = t.flash) ∧
      FreshRegisters u ∧ u.cfg = s.cfg

/-- A reset between two flash operations of one command. Between the erase of the zero page and the stub
row, every word of the zero page is left erased, the reset vector among them. Between two rows of a
maximum block at row boundaries, the rows before are programmed and the words of those after are as they
were. (Derived: marked so in 70_reset_and_hazards.md R248, R252; assumptions 4 and 14.) -/
def Obligations.ResetBetweenTwoFlashOperations : Prop :=
  (∀ (A : Word) (s : State), s.cfg.WellFormed → eraseRefused s.cfg A = false →
    A.toNat < s.cfg.pageSpan →
    ∃ u, cutShort 1 s (exec (.erasePage A) s) = .next u ∧
      (∀ i < s.cfg.pageWords, flashKnown u (wordAddr s.cfg 0#32 i) = some s.cfg.erasedWord) ∧
      FreshRegisters u ∧ u.cfg = s.cfg) ∧
  (∀ (A : Word) (words : List Word) (n : Nat) (s : State), s.cfg.WellFormed →
    words.length = s.cfg.maxWords →
    (∀ k < s.cfg.maxRows, writeRefused s.cfg (rowAddr s.cfg A k) = false) →
    (∀ k < s.cfg.maxRows, (rowAddr s.cfg A k).toNat % s.cfg.rowSpan = 0) →
    ∃ u, cutShort n s (exec (.writeMax A words) s) = .next u ∧
      (∀ k < s.cfg.maxRows, ∀ i < s.cfg.rowWords,
        flashKnown u (wordAddr s.cfg (rowAddr s.cfg A k) i) =
          if k < n then (forceStub s.cfg (rowAddr s.cfg A k) (rowWordsAt s.cfg words k))[i]?
          else flashKnown s (wordAddr s.cfg (rowAddr s.cfg A k) i)) ∧
      FreshRegisters u ∧ u.cfg = s.cfg)

/-- The three invariants below hold right after reset, for every legal parameter set and so for that of
`State.reset` (assumption 1). -/
def Obligations.InvAtReset : Prop :=
  (∀ c : Config, c.WellFormed → Inv (State.resetWith c) ∧ SafeTrace (State.resetWith c) ∧
    HandOverOnce (State.resetWith c)) ∧
  Inv State.reset ∧ SafeTrace State.reset ∧ HandOverOnce State.reset

/-- Every step keeps the invariant: a legal parameter set, decoder registers within their bounds (0
whenever the decoder waits for a start), every counted buffer byte written, both memories in
canonical form inside their address spaces. (Derived: marked so in 41_framing_codec.md section 2.) -/
def Obligations.StepKeepsInv : Prop := ∀ s t : State, Inv s → step s = .next t → Inv t

/-- Every step keeps the trace safe: no erase is ever aimed at the guard range, every row written has
`ROW_WORDS` words and carries the stub at address 0, a row at a guarded or reset-vector address is
only ever the stub row at 0, and the hand-over goes to the application. (Derived: marked so in
43_memory_commands.md section 5; the exception for the stub row at a guarded address 0 is what its
section 2 gives, see NOTES.md.) -/
def Obligations.StepKeepsTraceSafe : Prop :=
  ∀ s t : State, SafeTrace s → step s = .next t → SafeTrace t

/-- Every step keeps the count: one hand-over in the trace in `Running`, none before, so `StartApp` is
emitted at most once in a boot cycle. (Derived: 10_state.md section 8, the spec's decision D2.) -/
def Obligations.StepKeepsHandOverOnce : Prop :=
  ∀ s t : State, HandOverOnce s → step s = .next t → HandOverOnce t
end

