-- ==== Sys2Proof/Laws/State.lean ====
section
/-! SUPPORT. One lemma per field per state update, each true by `rfl`, so that no later proof unfolds
a record update. -/

namespace Sys2Proof.Machine

@[simp] theorem emit_cfg (e : Event) (s : State) : (emit e s).cfg = s.cfg := rfl
@[simp] theorem emit_bootState (e : Event) (s : State) : (emit e s).bootState = s.bootState := rfl
@[simp] theorem emit_rxState (e : Event) (s : State) : (emit e s).rxState = s.rxState := rfl
@[simp] theorem emit_rxLen (e : Event) (s : State) : (emit e s).rxLen = s.rxLen := rfl
@[simp] theorem emit_buf (e : Event) (s : State) : (emit e s).buf = s.buf := rfl
@[simp] theorem emit_sum1 (e : Event) (s : State) : (emit e s).sum1 = s.sum1 := rfl
@[simp] theorem emit_sum2 (e : Event) (s : State) : (emit e s).sum2 = s.sum2 := rfl
@[simp] theorem emit_trace (e : Event) (s : State) : (emit e s).trace = s.trace ++ [e] := rfl
@[simp] theorem emit_inputs (e : Event) (s : State) : (emit e s).inputs = s.inputs := rfl
@[simp] theorem emit_elapsed (e : Event) (s : State) : (emit e s).elapsed = s.elapsed := rfl
@[simp] theorem emit_flash (e : Event) (s : State) : (emit e s).flash = s.flash := rfl
@[simp] theorem emit_freeCount (e : Event) (s : State) : (emit e s).freeCount = s.freeCount := rfl

@[simp] theorem accReset_cfg (s : State) : (accReset s).cfg = s.cfg := rfl
@[simp] theorem accReset_bootState (s : State) : (accReset s).bootState = s.bootState := rfl
@[simp] theorem accReset_rxState (s : State) : (accReset s).rxState = s.rxState := rfl
@[simp] theorem accReset_rxLen (s : State) : (accReset s).rxLen = s.rxLen := rfl
@[simp] theorem accReset_buf (s : State) : (accReset s).buf = s.buf := rfl
@[simp] theorem accReset_sum1 (s : State) : (accReset s).sum1 = 0x00#8 := rfl
@[simp] theorem accReset_sum2 (s : State) : (accReset s).sum2 = 0x00#8 := rfl
@[simp] theorem accReset_trace (s : State) : (accReset s).trace = s.trace := rfl
@[simp] theorem accReset_inputs (s : State) : (accReset s).inputs = s.inputs := rfl
@[simp] theorem accReset_elapsed (s : State) : (accReset s).elapsed = s.elapsed := rfl
@[simp] theorem accReset_flash (s : State) : (accReset s).flash = s.flash := rfl
@[simp] theorem accReset_freeCount (s : State) : (accReset s).freeCount = s.freeCount := rfl

@[simp] theorem accumulate_cfg (b : Byte) (s : State) : (accumulate b s).cfg = s.cfg := rfl
@[simp] theorem accumulate_bootState (b : Byte) (s : State) : (accumulate b s).bootState = s.bootState := rfl
@[simp] theorem accumulate_rxState (b : Byte) (s : State) : (accumulate b s).rxState = s.rxState := rfl
@[simp] theorem accumulate_rxLen (b : Byte) (s : State) : (accumulate b s).rxLen = s.rxLen := rfl
@[simp] theorem accumulate_buf (b : Byte) (s : State) : (accumulate b s).buf = s.buf := rfl
@[simp] theorem accumulate_sum1 (b : Byte) (s : State) : (accumulate b s).sum1 = s.sum1 + b := rfl
@[simp] theorem accumulate_sum2 (b : Byte) (s : State) : (accumulate b s).sum2 = s.sum2 + (s.sum1 + b) := rfl
@[simp] theorem accumulate_trace (b : Byte) (s : State) : (accumulate b s).trace = s.trace := rfl
@[simp] theorem accumulate_inputs (b : Byte) (s : State) : (accumulate b s).inputs = s.inputs := rfl
@[simp] theorem accumulate_elapsed (b : Byte) (s : State) : (accumulate b s).elapsed = s.elapsed := rfl
@[simp] theorem accumulate_flash (b : Byte) (s : State) : (accumulate b s).flash = s.flash := rfl
@[simp] theorem accumulate_freeCount (b : Byte) (s : State) : (accumulate b s).freeCount = s.freeCount := rfl

@[simp] theorem decoderIdle_cfg (s : State) : (decoderIdle s).cfg = s.cfg := rfl
@[simp] theorem decoderIdle_bootState (s : State) : (decoderIdle s).bootState = s.bootState := rfl
@[simp] theorem decoderIdle_rxState (s : State) : (decoderIdle s).rxState = .waitForStart := rfl
@[simp] theorem decoderIdle_rxLen (s : State) : (decoderIdle s).rxLen = 0 := rfl
@[simp] theorem decoderIdle_buf (s : State) : (decoderIdle s).buf = s.buf := rfl
@[simp] theorem decoderIdle_sum1 (s : State) : (decoderIdle s).sum1 = s.sum1 := rfl
@[simp] theorem decoderIdle_sum2 (s : State) : (decoderIdle s).sum2 = s.sum2 := rfl
@[simp] theorem decoderIdle_trace (s : State) : (decoderIdle s).trace = s.trace := rfl
@[simp] theorem decoderIdle_inputs (s : State) : (decoderIdle s).inputs = s.inputs := rfl
@[simp] theorem decoderIdle_elapsed (s : State) : (decoderIdle s).elapsed = s.elapsed := rfl
@[simp] theorem decoderIdle_flash (s : State) : (decoderIdle s).flash = s.flash := rfl
@[simp] theorem decoderIdle_freeCount (s : State) : (decoderIdle s).freeCount = s.freeCount := rfl

@[simp] theorem takeInput_cfg (s : State) : (takeInput s).cfg = s.cfg := rfl
@[simp] theorem takeInput_bootState (s : State) : (takeInput s).bootState = s.bootState := rfl
@[simp] theorem takeInput_rxState (s : State) : (takeInput s).rxState = s.rxState := rfl
@[simp] theorem takeInput_rxLen (s : State) : (takeInput s).rxLen = s.rxLen := rfl
@[simp] theorem takeInput_buf (s : State) : (takeInput s).buf = s.buf := rfl
@[simp] theorem takeInput_sum1 (s : State) : (takeInput s).sum1 = s.sum1 := rfl
@[simp] theorem takeInput_sum2 (s : State) : (takeInput s).sum2 = s.sum2 := rfl
@[simp] theorem takeInput_trace (s : State) : (takeInput s).trace = s.trace := rfl
@[simp] theorem takeInput_inputs (s : State) : (takeInput s).inputs = s.inputs.tail := rfl
@[simp] theorem takeInput_elapsed (s : State) : (takeInput s).elapsed = s.elapsed + (nextInput s).tickAdvance := rfl
@[simp] theorem takeInput_flash (s : State) : (takeInput s).flash = s.flash := rfl
@[simp] theorem takeInput_freeCount (s : State) : (takeInput s).freeCount = s.freeCount + (if s.inputs.isEmpty then 1 else 0) := rfl

@[simp] theorem sampled_cfg (s : State) : (sampled s).cfg = s.cfg := rfl
@[simp] theorem sampled_bootState (s : State) : (sampled s).bootState = s.bootState := rfl
@[simp] theorem sampled_rxState (s : State) : (sampled s).rxState = s.rxState := rfl
@[simp] theorem sampled_rxLen (s : State) : (sampled s).rxLen = s.rxLen := rfl
@[simp] theorem sampled_buf (s : State) : (sampled s).buf = s.buf := rfl
@[simp] theorem sampled_sum1 (s : State) : (sampled s).sum1 = s.sum1 := rfl
@[simp] theorem sampled_sum2 (s : State) : (sampled s).sum2 = s.sum2 := rfl
@[simp] theorem sampled_trace (s : State) : (sampled s).trace = s.trace ++ [.wdt] := rfl
@[simp] theorem sampled_inputs (s : State) : (sampled s).inputs = s.inputs.tail := rfl
@[simp] theorem sampled_elapsed (s : State) : (sampled s).elapsed = s.elapsed + (nextInput s).tickAdvance := rfl
@[simp] theorem sampled_flash (s : State) : (sampled s).flash = s.flash := rfl
@[simp] theorem sampled_freeCount (s : State) : (sampled s).freeCount = s.freeCount + (if s.inputs.isEmpty then 1 else 0) := rfl

@[simp] theorem flashRead_cfg (a : Word) (s : State) : (flashRead a s).cfg = s.cfg := rfl
@[simp] theorem flashRead_bootState (a : Word) (s : State) : (flashRead a s).bootState = s.bootState := rfl
@[simp] theorem flashRead_rxState (a : Word) (s : State) : (flashRead a s).rxState = s.rxState := rfl
@[simp] theorem flashRead_rxLen (a : Word) (s : State) : (flashRead a s).rxLen = s.rxLen := rfl
@[simp] theorem flashRead_buf (a : Word) (s : State) : (flashRead a s).buf = s.buf := rfl
@[simp] theorem flashRead_sum1 (a : Word) (s : State) : (flashRead a s).sum1 = s.sum1 := rfl
@[simp] theorem flashRead_sum2 (a : Word) (s : State) : (flashRead a s).sum2 = s.sum2 := rfl
@[simp] theorem flashRead_trace (a : Word) (s : State) : (flashRead a s).trace = s.trace ++ [.flashRead a (flashAnswer s a)] := rfl
@[simp] theorem flashRead_inputs (a : Word) (s : State) : (flashRead a s).inputs = s.inputs := rfl
@[simp] theorem flashRead_elapsed (a : Word) (s : State) : (flashRead a s).elapsed = s.elapsed := rfl
@[simp] theorem flashRead_flash (a : Word) (s : State) : (flashRead a s).flash = s.flash := rfl
@[simp] theorem flashRead_freeCount (a : Word) (s : State) : (flashRead a s).freeCount = s.freeCount + (if (flashKnown s a).isSome then 0 else 1) := rfl

@[simp] theorem flashErase_cfg (a : Word) (s : State) : (flashErase a s).cfg = s.cfg := rfl
@[simp] theorem flashErase_bootState (a : Word) (s : State) : (flashErase a s).bootState = s.bootState := rfl
@[simp] theorem flashErase_rxState (a : Word) (s : State) : (flashErase a s).rxState = s.rxState := rfl
@[simp] theorem flashErase_rxLen (a : Word) (s : State) : (flashErase a s).rxLen = s.rxLen := rfl
@[simp] theorem flashErase_buf (a : Word) (s : State) : (flashErase a s).buf = s.buf := rfl
@[simp] theorem flashErase_sum1 (a : Word) (s : State) : (flashErase a s).sum1 = s.sum1 := rfl
@[simp] theorem flashErase_sum2 (a : Word) (s : State) : (flashErase a s).sum2 = s.sum2 := rfl
@[simp] theorem flashErase_trace (a : Word) (s : State) : (flashErase a s).trace = s.trace ++ [.flashErase a] := rfl
@[simp] theorem flashErase_inputs (a : Word) (s : State) : (flashErase a s).inputs = s.inputs := rfl
@[simp] theorem flashErase_elapsed (a : Word) (s : State) : (flashErase a s).elapsed = s.elapsed := rfl
@[simp] theorem flashErase_flash (a : Word) (s : State) : (flashErase a s).flash = flashAfterErase s.cfg a s.flash := rfl
@[simp] theorem flashErase_freeCount (a : Word) (s : State) : (flashErase a s).freeCount = s.freeCount := rfl

@[simp] theorem flashWriteRow_cfg (a : Word) (ws : List Word) (s : State) : (flashWriteRow a ws s).cfg = s.cfg := rfl
@[simp] theorem flashWriteRow_bootState (a : Word) (ws : List Word) (s : State) : (flashWriteRow a ws s).bootState = s.bootState := rfl
@[simp] theorem flashWriteRow_rxState (a : Word) (ws : List Word) (s : State) : (flashWriteRow a ws s).rxState = s.rxState := rfl
@[simp] theorem flashWriteRow_rxLen (a : Word) (ws : List Word) (s : State) : (flashWriteRow a ws s).rxLen = s.rxLen := rfl
@[simp] theorem flashWriteRow_buf (a : Word) (ws : List Word) (s : State) : (flashWriteRow a ws s).buf = s.buf := rfl
@[simp] theorem flashWriteRow_sum1 (a : Word) (ws : List Word) (s : State) : (flashWriteRow a ws s).sum1 = s.sum1 := rfl
@[simp] theorem flashWriteRow_sum2 (a : Word) (ws : List Word) (s : State) : (flashWriteRow a ws s).sum2 = s.sum2 := rfl
@[simp] theorem flashWriteRow_trace (a : Word) (ws : List Word) (s : State) : (flashWriteRow a ws s).trace = s.trace ++ [.flashWriteRow a ws] := rfl
@[simp] theorem flashWriteRow_inputs (a : Word) (ws : List Word) (s : State) : (flashWriteRow a ws s).inputs = s.inputs := rfl
@[simp] theorem flashWriteRow_elapsed (a : Word) (ws : List Word) (s : State) : (flashWriteRow a ws s).elapsed = s.elapsed := rfl
@[simp] theorem flashWriteRow_flash (a : Word) (ws : List Word) (s : State) : (flashWriteRow a ws s).flash = flashAfterWriteRow s.cfg a ws s.flash := rfl
@[simp] theorem flashWriteRow_freeCount (a : Word) (ws : List Word) (s : State) : (flashWriteRow a ws s).freeCount = s.freeCount := rfl

@[simp] theorem handOver_cfg (s : State) : (handOver s).cfg = s.cfg := rfl
@[simp] theorem handOver_bootState (s : State) : (handOver s).bootState = .running := rfl
@[simp] theorem handOver_rxState (s : State) : (handOver s).rxState = s.rxState := rfl
@[simp] theorem handOver_rxLen (s : State) : (handOver s).rxLen = s.rxLen := rfl
@[simp] theorem handOver_buf (s : State) : (handOver s).buf = s.buf := rfl
@[simp] theorem handOver_sum1 (s : State) : (handOver s).sum1 = s.sum1 := rfl
@[simp] theorem handOver_sum2 (s : State) : (handOver s).sum2 = s.sum2 := rfl
@[simp] theorem handOver_trace (s : State) : (handOver s).trace = s.trace ++ [.startApp s.cfg.applicationStart] := rfl
@[simp] theorem handOver_inputs (s : State) : (handOver s).inputs = s.inputs := rfl
@[simp] theorem handOver_elapsed (s : State) : (handOver s).elapsed = s.elapsed := rfl
@[simp] theorem handOver_flash (s : State) : (handOver s).flash = s.flash := rfl
@[simp] theorem handOver_freeCount (s : State) : (handOver s).freeCount = s.freeCount := rfl

@[simp] theorem afterEvents_cfg (es : List Event) (s : State) : (afterEvents es s).cfg = s.cfg := rfl
@[simp] theorem afterEvents_bootState (es : List Event) (s : State) : (afterEvents es s).bootState = s.bootState := rfl
@[simp] theorem afterEvents_rxState (es : List Event) (s : State) : (afterEvents es s).rxState = s.rxState := rfl
@[simp] theorem afterEvents_rxLen (es : List Event) (s : State) : (afterEvents es s).rxLen = s.rxLen := rfl
@[simp] theorem afterEvents_buf (es : List Event) (s : State) : (afterEvents es s).buf = s.buf := rfl
@[simp] theorem afterEvents_sum1 (es : List Event) (s : State) : (afterEvents es s).sum1 = s.sum1 := rfl
@[simp] theorem afterEvents_sum2 (es : List Event) (s : State) : (afterEvents es s).sum2 = s.sum2 := rfl
@[simp] theorem afterEvents_trace (es : List Event) (s : State) : (afterEvents es s).trace = s.trace ++ es := rfl
@[simp] theorem afterEvents_inputs (es : List Event) (s : State) : (afterEvents es s).inputs = s.inputs := rfl
@[simp] theorem afterEvents_elapsed (es : List Event) (s : State) : (afterEvents es s).elapsed = s.elapsed := rfl
@[simp] theorem afterEvents_flash (es : List Event) (s : State) : (afterEvents es s).flash = s.flash := rfl
@[simp] theorem afterEvents_freeCount (es : List Event) (s : State) : (afterEvents es s).freeCount = s.freeCount := rfl

@[simp] theorem reboot_cfg (s : State) : (State.reboot s).cfg = s.cfg := rfl
@[simp] theorem reboot_bootState (s : State) : (State.reboot s).bootState = .listening := rfl
@[simp] theorem reboot_rxState (s : State) : (State.reboot s).rxState = .waitForStart := rfl
@[simp] theorem reboot_rxLen (s : State) : (State.reboot s).rxLen = 0 := rfl
@[simp] theorem reboot_buf (s : State) : (State.reboot s).buf = [] := rfl
@[simp] theorem reboot_sum1 (s : State) : (State.reboot s).sum1 = 0x00#8 := rfl
@[simp] theorem reboot_sum2 (s : State) : (State.reboot s).sum2 = 0x00#8 := rfl
@[simp] theorem reboot_trace (s : State) : (State.reboot s).trace = [] := rfl
@[simp] theorem reboot_inputs (s : State) : (State.reboot s).inputs = s.inputs := rfl
@[simp] theorem reboot_elapsed (s : State) : (State.reboot s).elapsed = 0 := rfl
@[simp] theorem reboot_flash (s : State) : (State.reboot s).flash = s.flash := rfl
@[simp] theorem reboot_freeCount (s : State) : (State.reboot s).freeCount = s.freeCount := rfl

end Sys2Proof.Machine
end

