-- ==== Sys2Proof/Laws/Codec.lean ====
section
/-! SUPPORT. The codec's small laws: byte order, words, checksum, escape. -/

namespace Sys2Proof

@[simp] theorem le16_length (v : BitVec 16) : (le16 v).length = 2 := rfl

@[simp] theorem le32_length (v : Word) : (le32 v).length = 4 := rfl

theorem u16_of_le16 (v : BitVec 16) :
    u16 (v.extractLsb' 0 8) (v.extractLsb' 8 8) = v.toNat := by
  have := v.isLt
  simp [u16, BitVec.extractLsb'_toNat, Nat.shiftRight_eq_div_pow]
  omega

theorem u32_of_le32 (v : Word) :
    u32 (v.extractLsb' 0 8) (v.extractLsb' 8 8) (v.extractLsb' 16 8) (v.extractLsb' 24 8) = v := by
  apply BitVec.eq_of_toNat_eq
  have := v.isLt
  simp [u32, BitVec.extractLsb'_toNat, Nat.shiftRight_eq_div_pow]
  omega

theorem u16_lt (b0 b1 : Byte) : u16 b0 b1 < 65536 := by
  have := b0.isLt
  have := b1.isLt
  simp only [u16]
  omega

/-- Two bytes are the little-endian form of the number they make. -/
theorem le16_u16 (b0 b1 : Byte) : le16 (BitVec.ofNat 16 (u16 b0 b1)) = [b0, b1] := by
  have h0 := b0.isLt
  have h1 := b1.isLt
  simp only [le16, List.cons.injEq, and_true]
  constructor <;> apply BitVec.eq_of_toNat_eq <;>
    simp [u16, BitVec.extractLsb'_toNat, Nat.shiftRight_eq_div_pow] <;> omega

/-- Four bytes are the little-endian form of the word they make. -/
theorem le32_u32 (b0 b1 b2 b3 : Byte) : le32 (u32 b0 b1 b2 b3) = [b0, b1, b2, b3] := by
  have h0 := b0.isLt
  have h1 := b1.isLt
  have h2 := b2.isLt
  have h3 := b3.isLt
  simp only [le32, List.cons.injEq, and_true]
  refine ⟨?_, ?_, ?_, ?_⟩ <;> apply BitVec.eq_of_toNat_eq <;>
    simp [u32, BitVec.extractLsb'_toNat, Nat.shiftRight_eq_div_pow] <;> omega

@[simp] theorem wordsOf_bytesOf (ws : List Word) : wordsOf (bytesOf ws) = ws := by
  induction ws with
  | nil => rfl
  | cons w ws ih => simp [bytesOf, le32, wordsOf, ih, u32_of_le32]

@[simp] theorem bytesOf_length (ws : List Word) : (bytesOf ws).length = 4 * ws.length := by
  induction ws with
  | nil => rfl
  | cons w ws ih => simp [bytesOf, ih]; omega

/-- A byte list of `4 * n` bytes is the bytes of its `n` words. -/
theorem bytesOf_wordsOf (n : Nat) (bs : List Byte) (h : bs.length = 4 * n) :
    bytesOf (wordsOf bs) = bs ∧ (wordsOf bs).length = n := by
  induction n generalizing bs with
  | zero =>
    obtain rfl : bs = [] := List.length_eq_zero_iff.1 (by omega)
    exact ⟨rfl, rfl⟩
  | succ n ih =>
    match bs, h with
    | b0 :: b1 :: b2 :: b3 :: rest, h =>
      obtain ⟨h1, h2⟩ := ih rest (by simp at h; omega)
      simp [wordsOf, bytesOf, le32_u32, h1, h2]

/-! ### Checksum -/

theorem f16Value_toNat (p : Byte × Byte) : (f16Value p).toNat = p.1.toNat + 256 * p.2.toNat := by
  have h1 := p.1.isLt
  have h2 := p.2.isLt
  have hor := Nat.two_pow_add_eq_or_of_lt h1 p.2.toNat
  have hshift : p.2.toNat <<< 8 % 65536 = 2 ^ 8 * p.2.toNat := by
    rw [Nat.shiftLeft_eq]
    omega
  simp only [f16Value, BitVec.toNat_or, BitVec.toNat_shiftLeft, BitVec.toNat_setWidth]
  norm_num at hor ⊢
  rw [Nat.mod_eq_of_lt (by omega : p.2.toNat < 65536), Nat.mod_eq_of_lt (by omega : p.1.toNat < 65536),
    hshift]
  norm_num
  omega

/-- The trailer of a message is its two sums, low byte first (R115). -/
theorem le16_f16Value (p : Byte × Byte) : le16 (f16Value p) = [p.1, p.2] := by
  rw [← le16_u16 p.1 p.2, u16, ← f16Value_toNat, BitVec.ofNat_toNat, BitVec.setWidth_eq]

theorem f16Value_injective {p q : Byte × Byte} (h : f16Value p = f16Value q) : p = q := by
  have h' := congrArg le16 h
  simp only [le16_f16Value, List.cons.injEq, and_true] at h'
  exact Prod.ext h'.1 h'.2

theorem f16Sums_append (l m : List Byte) : f16Sums (l ++ m) = m.foldl f16Step (f16Sums l) := by
  simp [f16Sums]

/-! ### Messages and frames -/

@[simp] theorem message_length (cmd : Byte) (args : List Byte) :
    (message cmd args).length = 3 + args.length := by
  simp [message]
  omega

@[simp] theorem frameBody_length (cmd : Byte) (args : List Byte) :
    (frameBody cmd args).length = 5 + args.length := by
  simp [frameBody]
  omega

/-- The body of a frame is its message and the message's two sums. -/
theorem frameBody_eq (cmd : Byte) (args : List Byte) :
    frameBody cmd args =
      message cmd args ++ [(f16Sums (message cmd args)).1, (f16Sums (message cmd args)).2] := by
  rw [frameBody, f16, le16_f16Value]

/-- The three marker values (R80). -/
theorem isMarker_iff (d : Byte) :
    isMarker d = true ↔ d = startMarker ∨ d = endMarker ∨ d = escMarker := by
  simp [isMarker, or_assoc]

/-- No byte that `E` puts out is a raw `START` or `END` (R82). -/
theorem escape_hides_markers (d : Byte) : startMarker ∉ escape d ∧ endMarker ∉ escape d := by
  unfold escape
  split
  · rename_i h
    rcases (isMarker_iff d).1 h with rfl | rfl | rfl <;> decide
  · rename_i h
    simp only [isMarker_iff, not_or] at h
    simp [Ne.symm h.1, Ne.symm h.2.1]

/-- The wire length of one data byte (R82, R90). -/
theorem escape_length (d : Byte) : (escape d).length = 1 + (if isMarker d then 1 else 0) := by
  unfold escape
  split <;> simp_all

/-- Escaping twice with the same constant gives the byte back (R84). -/
theorem xor_escXor_twice (d : Byte) : (d ^^^ escXor) ^^^ escXor = d := by
  rw [BitVec.xor_assoc, BitVec.xor_self, BitVec.xor_zero]

/-! ### The command table -/

/-- The parser on a message of at least 3 bytes (R150). -/
theorem decode_cons (c : Config) (l0 l1 cmd : Byte) (args : List Byte) :
    decode c (l0 :: l1 :: cmd :: args) =
      if u16 l0 l1 = 1 + args.length then
        (match commandRow cmd with
          | none => .error .unknownCommand
          | some row =>
            if args.length = row.2.1.argc c then
              .ok (row.2.2 (addrOperand args) (wordsOf (args.drop 4)))
            else .error .wrongArgCount)
      else .error .lengthMismatch := by
  have hlen : (l0 :: l1 :: cmd :: args).length - 2 = 1 + args.length := by
    simp only [List.length_cons]
    omega
  simp only [decode, hlen] <;> rfl

/-- The parser on the message of a command byte and arguments: the length field is right exactly when
it fits 16 bits. -/
theorem decode_message_eq (c : Config) (cmd : Byte) (args : List Byte) :
    decode c (message cmd args) =
      if 1 + args.length ≤ 0xFFFF then
        (match commandRow cmd with
          | none => .error .unknownCommand
          | some row =>
            if args.length = row.2.1.argc c then
              .ok (row.2.2 (addrOperand args) (wordsOf (args.drop 4)))
            else .error .wrongArgCount)
      else .error .lengthMismatch := by
  simp only [message, le16, List.cons_append, List.nil_append, decode_cons, u16_of_le16,
    BitVec.toNat_ofNat]
  by_cases h : 1 + args.length ≤ 0xFFFF
  · rw [if_pos h, if_pos (by omega)]
  · rw [if_neg h, if_neg (by omega)]

/-- The address operand is read back from its little-endian form (R92). -/
theorem addrOperand_le32 (a : Word) (rest : List Byte) : addrOperand (le32 a ++ rest) = a := by
  simp [le32, addrOperand, u32_of_le32]

/-- Each command's own row, by its command byte. -/
theorem need_cmd (c : Config) (i : Instr) (h : i.wellFormed c = true) :
    need c i.cmd = some i.args.length := by
  cases i <;> simp_all [Instr.wellFormed, Instr.cmd, Instr.args, need, commandRow, commandTable,
    List.find?, Format.argc]

/-- A well-formed instruction's frame body fits the buffer (R9 item 7). -/
theorem body_fits {c : Config} (hc : c.WellFormed) (i : Instr) (h : i.wellFormed c = true) :
    5 + i.args.length ≤ c.rxCap := by
  obtain ⟨-, -, -, -, -, -, hrow, -, -, -, -, -, -, hcap, -⟩ := hc
  cases i <;> simp_all [Instr.wellFormed, Instr.args] <;> omega

end Sys2Proof
end

