-- ==== Sys2Proof/Laws/Memory.lean ====
section
/-! SUPPORT. The laws of the sparse memory: read after write, every other key unchanged, and that
every operation keeps the canonical form. -/

namespace Sys2Proof.Machine

theorem Memory.read_write_same {α : Type} (m : Memory α) (a : Nat) (v : α) :
    Memory.read (Memory.write m a v) a = some v := by
  induction m with
  | nil => simp [Memory.write, Memory.read]
  | cons cell rest ih =>
    obtain ⟨k, w⟩ := cell
    simp only [Memory.write]
    split
    · simp [Memory.read]
    · split
      · simp [Memory.read]
      · rename_i h1 h2
        simp [Memory.read, Ne.symm h2, ih]

theorem Memory.read_write_other {α : Type} (m : Memory α) {a b : Nat} (v : α) (h : b ≠ a) :
    Memory.read (Memory.write m a v) b = Memory.read m b := by
  induction m with
  | nil => simp [Memory.write, Memory.read, Ne.symm h]
  | cons cell rest ih =>
    obtain ⟨k, w⟩ := cell
    simp only [Memory.write]
    split
    · simp [Memory.read, Ne.symm h]
    · split
      · rename_i h1 h2
        subst h2
        simp [Memory.read, Ne.symm h]
      · simp [Memory.read, ih]

theorem Memory.read_forget {α : Type} (p : Nat → Bool) (m : Memory α) (a : Nat) :
    Memory.read (Memory.forget p m) a = if p a then none else Memory.read m a := by
  induction m with
  | nil => simp [Memory.forget, Memory.read]
  | cons cell rest ih =>
    obtain ⟨k, w⟩ := cell
    simp only [Memory.forget] at ih
    by_cases hk : k = a
    · subst hk
      cases hp : p k <;> simp_all [Memory.forget, Memory.read]
    · cases hp : p k <;> simp_all [Memory.forget, Memory.read]

/-- The keys of a write: the key written and the keys there were. -/
theorem Memory.mem_write {α : Type} {m : Memory α} {a : Nat} {v : α} {cell : Nat × α}
    (h : cell ∈ Memory.write m a v) : cell = (a, v) ∨ cell ∈ m := by
  induction m with
  | nil => simpa [Memory.write] using h
  | cons head rest ih =>
    obtain ⟨k, w⟩ := head
    simp only [Memory.write] at h
    split at h
    · simpa using h
    · split at h
      · rcases List.mem_cons.1 h with h | h
        · exact .inl h
        · exact .inr (List.mem_cons_of_mem _ h)
      · rcases List.mem_cons.1 h with h | h
        · exact .inr (by simp [h])
        · rcases ih h with h | h
          · exact .inl h
          · exact .inr (List.mem_cons_of_mem _ h)

theorem Memory.wf_nil {α : Type} : Memory.wf ([] : Memory α) := by simp [Memory.wf]

theorem Memory.wf_cons {α : Type} (k : Nat) (w : α) (m : Memory α) :
    Memory.wf ((k, w) :: m) ↔ (∀ cell ∈ m, k < cell.1) ∧ Memory.wf m := by
  simp [Memory.wf]

theorem Memory.wf_write {α : Type} {m : Memory α} (a : Nat) (v : α) (h : Memory.wf m) :
    Memory.wf (Memory.write m a v) := by
  induction m with
  | nil => simp [Memory.write, Memory.wf]
  | cons head rest ih =>
    obtain ⟨k, w⟩ := head
    obtain ⟨hk, hrest⟩ := (Memory.wf_cons k w rest).1 h
    simp only [Memory.write]
    split
    · rename_i hlt
      refine (Memory.wf_cons a v _).2 ⟨fun cell hc => ?_, h⟩
      rcases List.mem_cons.1 hc with rfl | hc
      · exact hlt
      · exact Nat.lt_trans hlt (hk cell hc)
    · split
      · rename_i heq
        subst heq
        exact (Memory.wf_cons a v _).2 ⟨hk, hrest⟩
      · refine (Memory.wf_cons k w _).2 ⟨fun cell hc => ?_, ih hrest⟩
        rcases Memory.mem_write hc with rfl | hc
        · simp only; omega
        · exact hk cell hc

theorem Memory.wf_forget {α : Type} (p : Nat → Bool) {m : Memory α} (h : Memory.wf m) :
    Memory.wf (Memory.forget p m) :=
  List.Pairwise.sublist (List.Sublist.map _ List.filter_sublist) h

theorem Memory.mem_forget {α : Type} {p : Nat → Bool} {m : Memory α} {cell : Nat × α}
    (h : cell ∈ Memory.forget p m) : cell ∈ m := (List.mem_filter.1 h).1

theorem Memory.wf_writeBlock {α : Type} (step : Nat) {m : Memory α} (a : Nat) (vs : List α)
    (h : Memory.wf m) : Memory.wf (Memory.writeBlock step m a vs) := by
  induction vs generalizing m a with
  | nil => exact h
  | cons v vs ih => exact ih _ (Memory.wf_write a v h)

/-- The keys of a block write: those there were, and keys inside the block. -/
theorem Memory.mem_writeBlock {α : Type} {step : Nat} {m : Memory α} {a : Nat} {vs : List α}
    {cell : Nat × α} (h : cell ∈ Memory.writeBlock step m a vs) :
    cell ∈ m ∨ ∃ i < vs.length, cell.1 = a + i * step := by
  induction vs generalizing m a with
  | nil => exact .inl h
  | cons v vs ih =>
    rcases ih h with h | ⟨i, hi, hcell⟩
    · rcases Memory.mem_write h with rfl | h
      · exact .inr ⟨0, by simp, by simp⟩
      · exact .inl h
    · exact .inr ⟨i + 1, by simpa using hi, by rw [hcell, Nat.add_mul]; omega⟩

/-- A block write leaves every key outside the block as it was. -/
theorem Memory.read_writeBlock_other {α : Type} {step : Nat} (m : Memory α) {a b : Nat}
    {vs : List α} (h : ∀ i < vs.length, b ≠ a + i * step) :
    Memory.read (Memory.writeBlock step m a vs) b = Memory.read m b := by
  induction vs generalizing m a with
  | nil => rfl
  | cons v vs ih =>
    rw [Memory.writeBlock, ih, Memory.read_write_other]
    · simpa using h 0 (by simp)
    · intro i hi
      have := h (i + 1) (by simpa using hi)
      rw [Nat.add_mul] at this
      omega

/-- A block write with a positive step puts value `i` at key `a + i * step`. -/
theorem Memory.read_writeBlock {α : Type} {step : Nat} (hstep : 0 < step) (m : Memory α) (a : Nat)
    (vs : List α) {i : Nat} (hi : i < vs.length) :
    Memory.read (Memory.writeBlock step m a vs) (a + i * step) = vs[i]? := by
  induction vs generalizing m a i with
  | nil => simp at hi
  | cons v vs ih =>
    rw [Memory.writeBlock]
    cases i with
    | zero =>
      rw [Nat.zero_mul, Nat.add_zero, Memory.read_writeBlock_other, Memory.read_write_same]
      · simp
      · intro j _
        have := Nat.le_mul_of_pos_left step (Nat.succ_pos j)
        rw [Nat.succ_mul] at this
        omega
    | succ i =>
      have := ih (Memory.write m a v) (a + step) (i := i) (by simpa using hi)
      rw [Nat.add_mul, show a + (i * step + 1 * step) = a + step + i * step by omega, this]
      simp

theorem Memory.wf_writeRound {α : Type} (step : Nat) {m : Memory α} (a : Nat) (vs : List α)
    (h : Memory.wf m) : Memory.wf (Memory.writeRound step m a vs) := by
  induction vs generalizing m a with
  | nil => exact h
  | cons v vs ih => exact ih _ (Memory.wf_write _ v h)

/-- The keys of a rounded block write: those there were, and keys inside the address space. -/
theorem Memory.mem_writeRound {α : Type} {step : Nat} {m : Memory α} {a : Nat} {vs : List α}
    {cell : Nat × α} (h : cell ∈ Memory.writeRound step m a vs) :
    cell ∈ m ∨ cell.1 < 2 ^ 32 := by
  induction vs generalizing m a with
  | nil => exact .inl h
  | cons v vs ih =>
    rcases ih h with h | h
    · rcases Memory.mem_write h with rfl | h
      · exact .inr (Nat.mod_lt _ (by decide))
      · exact .inl h
    · exact .inr h

/-- A rounded block write leaves every key that is none of its own as it was. -/
theorem Memory.read_writeRound_other {α : Type} {step : Nat} (m : Memory α) {a b : Nat}
    {vs : List α} (h : ∀ i < vs.length, b ≠ (a + i * step) % 2 ^ 32) :
    Memory.read (Memory.writeRound step m a vs) b = Memory.read m b := by
  induction vs generalizing m a with
  | nil => rfl
  | cons v vs ih =>
    rw [Memory.writeRound, ih, Memory.read_write_other]
    · simpa using h 0 (by simp)
    · intro i hi
      have := h (i + 1) (by simpa using hi)
      rwa [Nat.add_mul, Nat.one_mul, Nat.add_comm (i * step), ← Nat.add_assoc] at this

/-- A rounded block write that does not go all the way round puts value `i` at key
`(a + i * step) mod 2^32`. -/
theorem Memory.read_writeRound {α : Type} {step : Nat} (hstep : 0 < step) (m : Memory α) (a : Nat)
    (vs : List α) (hfit : vs.length * step ≤ 2 ^ 32) {i : Nat} (hi : i < vs.length) :
    Memory.read (Memory.writeRound step m a vs) ((a + i * step) % 2 ^ 32) = vs[i]? := by
  induction vs generalizing m a i with
  | nil => simp at hi
  | cons v vs ih =>
    rw [List.length_cons, Nat.add_mul, Nat.one_mul] at hfit
    rw [Memory.writeRound]
    cases i with
    | zero =>
      rw [Nat.zero_mul, Nat.add_zero, Memory.read_writeRound_other, Memory.read_write_same]
      · simp
      · intro j hj
        have := Nat.mul_le_mul_right step (show j + 1 ≤ vs.length from hj)
        rw [Nat.add_mul, Nat.one_mul] at this
        omega
    | succ i =>
      have := ih (Memory.write m (a % 2 ^ 32) v) (a + step) (by omega) (i := i) (by simpa using hi)
      rw [Nat.add_mul, Nat.one_mul, show a + (i * step + step) = a + step + i * step by omega, this]
      simp

end Sys2Proof.Machine
end

