-- ==== Sys2Proof/Laws/Ops.lean ====
section
/-! SUPPORT. One lemma per shared operation that says everything it does, as one record update. -/

namespace Sys2Proof.Machine

/-! ### The encoder -/

/-- `EmitData(d)`: the escaped byte at the end of the trace, the unescaped byte in the sums. -/
theorem emitData_eq (d : Byte) (s : State) :
    emitData d s =
      { s with
        trace := s.trace ++ (escape d).map Event.tx
        sum1 := (f16Step (s.sum1, s.sum2) d).1
        sum2 := (f16Step (s.sum1, s.sum2) d).2 } := by
  unfold emitData escape
  split <;> simp [emit, accumulate]

/-- `EmitData` over a list. -/
theorem emitAll_eq (ds : List Byte) (s : State) :
    emitAll ds s =
      { s with
        trace := s.trace ++ (ds.flatMap escape).map Event.tx
        sum1 := (ds.foldl f16Step (s.sum1, s.sum2)).1
        sum2 := (ds.foldl f16Step (s.sum1, s.sum2)).2 } := by
  induction ds generalizing s with
  | nil => simp [emitAll]
  | cons d ds ih =>
    have hcons : emitAll (d :: ds) s = emitAll ds (emitData d s) := rfl
    rw [hcons, ih, emitData_eq]
    simp

/-- Sending one list and then another is sending the two joined. -/
theorem emitAll_append (ds es : List Byte) (s : State) :
    emitAll (ds ++ es) s = emitAll es (emitAll ds s) := by
  simp [emitAll]

/-- The encoder writes the sums and the trace and nothing else (R120, R124). -/
theorem encodeReply_frame (cmd : Byte) (args : List Byte) (s : State) :
    ∃ es, encodeReply cmd args s =
      { s with
        trace := s.trace ++ es
        sum1 := (encodeReply cmd args s).sum1
        sum2 := (encodeReply cmd args s).sum2 } := by
  refine ⟨[.tx startMarker] ++ (le16 (BitVec.ofNat 16 (1 + args.length)) |>.flatMap escape |>.map .tx) ++
    (escape cmd).map .tx ++ (args.flatMap escape).map .tx ++ ?_ ++ [.tx endMarker], ?_⟩
  · exact ((escape (emitAll args (emitData cmd (emitAll (le16 (BitVec.ofNat 16 (1 + args.length)))
      (accReset (emit (.tx startMarker) s))))).sum1).map Event.tx) ++
      ((escape (emitAll args (emitData cmd (emitAll (le16 (BitVec.ofNat 16 (1 + args.length)))
      (accReset (emit (.tx startMarker) s))))).sum2).map Event.tx)
  · simp [encodeReply, emitTrailer, emitData_eq, emitAll_eq, emit, accReset]

/-! ### The flash capability -/

/-- A read changes the trace and the count of free values only (R61). -/
theorem flashRead_eq (a : Word) (s : State) :
    flashRead a s =
      { s with
        trace := s.trace ++ [.flashRead a (flashAnswer s a)]
        freeCount := s.freeCount + (if (flashKnown s a).isSome then 0 else 1) } := rfl

/-- What is known of the flash depends on the record alone. -/
theorem flashKnown_congr {s t : State} (hf : t.flash = s.flash) (a : Word) :
    flashKnown t a = flashKnown s a := by
  simp [flashKnown, hf]

theorem flashAnswer_of_known {s : State} {a w : Word} (h : flashKnown s a = some w) :
    flashAnswer s a = w := by
  simp [flashAnswer, h]

/-- Reads of a list of addresses: as many answers, one event each in order, every known word answered,
nothing but the trace and the count of free values changed. -/
theorem flashReadAll_spec (as : List Word) (s : State) :
    (flashReadAll as s).1.length = as.length ∧
    (∃ n, (flashReadAll as s).2 =
      { s with
        trace := s.trace ++ (as.zip (flashReadAll as s).1).map (fun p => Event.flashRead p.1 p.2)
        freeCount := n }) ∧
    (∀ (j : Nat) (a w : Word), as[j]? = some a → flashKnown s a = some w →
      (flashReadAll as s).1[j]? = some w) := by
  induction as generalizing s with
  | nil => exact ⟨rfl, ⟨s.freeCount, by simp [flashReadAll]⟩, by simp⟩
  | cons a as ih =>
    obtain ⟨hlen, ⟨n, hstate⟩, hknown⟩ := ih (flashRead a s)
    refine ⟨by simp [flashReadAll, hlen], ⟨n, ?_⟩, ?_⟩
    · simp only [flashReadAll]
      rw [hstate]
      simp [flashRead_eq]
    · intro j b w hj hw
      cases j with
      | zero =>
        obtain rfl : a = b := by simpa using hj
        simp [flashReadAll, flashAnswer_of_known hw]
      | succ j =>
        have := hknown j b w (by simpa using hj) (show flashKnown (flashRead a s) b = some w from hw)
        simpa [flashReadAll] using this

/-- Row writes: one event each in order, nothing but the trace and the flash record changed. -/
theorem flashWriteRows_spec (rows : List (Word × List Word)) (s : State) :
    flashWriteRows rows s =
      { s with
        trace := s.trace ++ rows.map (fun r => Event.flashWriteRow r.1 r.2)
        flash := rows.foldl (fun m r => flashAfterWriteRow s.cfg r.1 r.2 m) s.flash } := by
  induction rows generalizing s with
  | nil => simp [flashWriteRows]
  | cons r rows ih =>
    have hcons : flashWriteRows (r :: rows) s = flashWriteRows rows (flashWriteRow r.1 r.2 s) := rfl
    rw [hcons, ih]
    simp [flashWriteRow, emit]

/-- `wordMeets` says that the word and the block have an address in common. -/
theorem wordMeets_iff {c : Config} {base len k : Nat} (hstep : 0 < c.wordStep) (hlen : 0 < len) :
    wordMeets c base len k = true ↔ SharesAddress k c.wordStep base len := by
  simp only [wordMeets, Bool.or_eq_true, decide_eq_true_eq]
  constructor
  · rintro (h | h)
    · exact ⟨0, hstep, (k + (2 ^ 32 - base % 2 ^ 32)) % 2 ^ 32, h, by omega⟩
    · exact ⟨2 ^ 32 - (k + (2 ^ 32 - base % 2 ^ 32)) % 2 ^ 32, by omega, 0, hlen, by omega⟩
  · rintro ⟨x, hx, y, hy, h⟩
    omega

/-- Everything a store of a block does, where the block does not go all the way round: its words are
known, a word beside them that shares an address with it is unknown, every other is as it was. -/
theorem flashStore_spec {c : Config} {a : Nat} {ws : List Word} (m : Memory Word)
    (hstep : 0 < c.wordStep) (hfit : ws.length * c.wordStep ≤ 2 ^ 32) :
    (∀ i < ws.length,
      Memory.read (flashStore c a ws m) ((a + i * c.wordStep) % 2 ^ 32) = ws[i]?) ∧
    (∀ k, (∀ i < ws.length, k ≠ (a + i * c.wordStep) % 2 ^ 32) →
      Memory.read (flashStore c a ws m) k =
        if wordMeets c a (ws.length * c.wordStep) k = true then none else Memory.read m k) := by
  refine ⟨fun i hi => Memory.read_writeRound hstep _ _ _ hfit hi, fun k hk => ?_⟩
  rw [flashStore, Memory.read_writeRound_other _ hk, Memory.read_forget]

theorem flashStore_wf (c : Config) (a : Nat) (ws : List Word) {m : Memory Word} (h : Memory.wf m) :
    Memory.wf (flashStore c a ws m) :=
  Memory.wf_writeRound _ _ _ (Memory.wf_forget _ h)

theorem flashStore_keys {c : Config} {a : Nat} {ws : List Word} {m : Memory Word}
    (h : ∀ cell ∈ m, cell.1 < 2 ^ 32) : ∀ cell ∈ flashStore c a ws m, cell.1 < 2 ^ 32 := by
  intro cell hcell
  rcases Memory.mem_writeRound hcell with hm | hlt
  · exact h cell (Memory.mem_forget hm)
  · exact hlt

/-- A row write either stores the row or forgets what it might touch. -/
theorem flashAfterWriteRow_cases (c : Config) (a : Word) (ws : List Word) (m : Memory Word) :
    (a.toNat % c.rowSpan = 0 ∧ flashAfterWriteRow c a ws m = flashStore c a.toNat ws m) ∨
    (a.toNat % c.rowSpan ≠ 0 ∧
      flashAfterWriteRow c a ws m = Memory.forget (rowMayTouch c a) m) := by
  unfold flashAfterWriteRow
  split
  · exact .inl ⟨‹_›, rfl⟩
  · exact .inr ⟨‹_›, rfl⟩

/-- Every event leaves the record canonical and inside the address space. -/
theorem flashAfterEvent_inv {c : Config} {m : Memory Word} (e : Event) (hwf : Memory.wf m)
    (hkeys : ∀ cell ∈ m, cell.1 < 2 ^ 32) :
    Memory.wf (flashAfterEvent c m e) ∧ ∀ cell ∈ flashAfterEvent c m e, cell.1 < 2 ^ 32 := by
  cases e with
  | flashErase a => exact ⟨flashStore_wf _ _ _ hwf, flashStore_keys hkeys⟩
  | flashWriteRow a ws =>
    rcases flashAfterWriteRow_cases c a ws m with ⟨-, h⟩ | ⟨-, h⟩ <;>
      simp only [flashAfterEvent, h]
    · exact ⟨flashStore_wf _ _ _ hwf, flashStore_keys hkeys⟩
    · exact ⟨Memory.wf_forget _ hwf, fun cell hc => hkeys cell (Memory.mem_forget hc)⟩
  | wdt => exact ⟨hwf, hkeys⟩
  | tx b => exact ⟨hwf, hkeys⟩
  | flashRead a v => exact ⟨hwf, hkeys⟩
  | startApp a => exact ⟨hwf, hkeys⟩

/-- The same of a list of events. -/
theorem flashAfterEvents_inv {c : Config} {m : Memory Word} (es : List Event) (hwf : Memory.wf m)
    (hkeys : ∀ cell ∈ m, cell.1 < 2 ^ 32) :
    Memory.wf (flashAfterEvents c es m) ∧ ∀ cell ∈ flashAfterEvents c es m, cell.1 < 2 ^ 32 := by
  induction es generalizing m with
  | nil => exact ⟨hwf, hkeys⟩
  | cons e es ih =>
    obtain ⟨h1, h2⟩ := flashAfterEvent_inv e hwf hkeys
    exact ih h1 h2

theorem flashAfterEvents_append (c : Config) (es fs : List Event) (m : Memory Word) :
    flashAfterEvents c (es ++ fs) m = flashAfterEvents c fs (flashAfterEvents c es m) := by
  simp [flashAfterEvents]

/-- Events that are neither an erase nor a row write leave the record as it was. -/
theorem flashAfterEvents_of_no_mutation {c : Config} {m : Memory Word} {es : List Event}
    (h : ∀ e ∈ es, isMutation e = false) : flashAfterEvents c es m = m := by
  induction es generalizing m with
  | nil => rfl
  | cons e es ih =>
    have he := h e (by simp)
    have hstep : flashAfterEvent c m e = m := by cases e <;> simp_all [isMutation, flashAfterEvent]
    show flashAfterEvents c es (flashAfterEvent c m e) = m
    rw [hstep]
    exact ih fun e' h' => h e' (by simp [h'])

/-! ### The guard -/

theorem inGuard_iff (c : Config) (a : Word) :
    inGuard c a = true ↔ c.bootloaderStart ≤ a ∧ a < c.applicationStart := by
  simp [inGuard]

theorem writeRefused_iff (c : Config) (a : Word) :
    writeRefused c a = true ↔
      (c.bootloaderStart ≤ a ∧ a < c.applicationStart) ∨ a < c.ivtBase := by
  simp [writeRefused, inGuard, belowIvt]

/-- Forcing the stub keeps the number of words, where there are at least two. -/
theorem forceStub_length {c : Config} {ra : Word} {ws : List Word} (h : 2 ≤ ws.length) :
    (forceStub c ra ws).length = ws.length := by
  unfold forceStub
  split
  · simp
    omega
  · rfl

theorem stubRow_length {c : Config} (h : 2 ≤ c.rowWords) : (stubRow c).length = c.rowWords := by
  simp [stubRow]
  omega

/-- Each row of a maximum block has `ROW_WORDS` words. -/
theorem rowWordsAt_length {c : Config} {ws : List Word} {k : Nat} (hlen : ws.length = c.maxWords)
    (hk : k < c.maxRows) : (rowWordsAt c ws k).length = c.rowWords := by
  have hle : (k + 1) * c.rowWords ≤ c.maxWords :=
    Nat.le_trans (Nat.mul_le_mul_right _ hk) (Nat.div_mul_le_self _ _)
  rw [Nat.add_mul] at hle
  simp only [rowWordsAt, List.length_take, List.length_drop]
  omega

/-! ### The decoder registers -/

/-- `Append(d)`: either the decoder is reset, or one byte is stored and counted (R134). -/
theorem append_cases (d : Byte) (s : State) :
    (s.rxLen = s.cfg.rxCap ∧ append d s = decoderIdle s) ∨
    (s.rxLen ≠ s.cfg.rxCap ∧ append d s =
      { s with buf := Memory.write s.buf s.rxLen d, rxLen := s.rxLen + 1, rxState := .verbatim }) := by
  unfold append
  split
  · exact .inl ⟨‹_›, rfl⟩
  · exact .inr ⟨‹_›, rfl⟩

@[simp] theorem append_cfg (d : Byte) (s : State) : (append d s).cfg = s.cfg := by
  rcases append_cases d s with ⟨-, h⟩ | ⟨-, h⟩ <;> simp [h]

@[simp] theorem append_trace (d : Byte) (s : State) : (append d s).trace = s.trace := by
  rcases append_cases d s with ⟨-, h⟩ | ⟨-, h⟩ <;> simp [h]

@[simp] theorem append_bootState (d : Byte) (s : State) : (append d s).bootState = s.bootState := by
  rcases append_cases d s with ⟨-, h⟩ | ⟨-, h⟩ <;> simp [h]

@[simp] theorem append_flash (d : Byte) (s : State) : (append d s).flash = s.flash := by
  rcases append_cases d s with ⟨-, h⟩ | ⟨-, h⟩ <;> simp [h]

/-- `buf[0 .. rx_len-1]` has `rx_len` bytes. -/
@[simp] theorem bufBody_length (s : State) : (bufBody s).length = s.rxLen := by simp [bufBody]

/-- The received bytes depend on the buffer and its count alone. -/
theorem bufBody_congr {s t : State} (hb : t.buf = s.buf) (hl : t.rxLen = s.rxLen) :
    bufBody t = bufBody s := by
  simp [bufBody, bufByte, hb, hl]

theorem completedMessage_congr {s t : State} (hb : t.buf = s.buf) (hl : t.rxLen = s.rxLen) :
    completedMessage t = completedMessage s := by
  simp [completedMessage, bufBody_congr hb hl, hl]

/-! ### Outcomes -/

@[simp] theorem onNext_next (f : State → State) (s : State) : onNext f (.next s) = .next (f s) := rfl

@[simp] theorem onNext_fault (f : State → State) (r : Fault) : onNext f (.fault r) = .fault r := rfl

@[simp] theorem onNext_refused (f : State → State) (r : Refusal) :
    onNext f (.refused r) = .refused r := rfl

end Sys2Proof.Machine
end

