-- ==== Sys2Proof/Laws/PerInstr.lean ====
section
/-! SUPPORT. Facts about every instruction as syntax, one lemma per constructor. Family `ArgCount`: the
argument bytes that the encoder writes for a well-formed instruction are as many as the dispatch table
asks for (42_dispatch_info_commands.md R154). -/

namespace Sys2Proof.Laws.ArgCount

def Statement (i : Instr) : Prop :=
  ∀ c : Config, i.wellFormed c = true → need c i.cmd = some i.args.length

theorem readPlatform : Statement .readPlatform := fun c h => need_cmd c _ h
theorem readVersion : Statement .readVersion := fun c h => need_cmd c _ h
theorem readRowLen : Statement .readRowLen := fun c h => need_cmd c _ h
theorem readPageLen : Statement .readPageLen := fun c h => need_cmd c _ h
theorem readProgLen : Statement .readProgLen := fun c h => need_cmd c _ h
theorem readMaxProgSize : Statement .readMaxProgSize := fun c h => need_cmd c _ h
theorem readAppStartAddr : Statement .readAppStartAddr := fun c h => need_cmd c _ h
theorem readBootStartAddr : Statement .readBootStartAddr := fun c h => need_cmd c _ h
theorem erasePage (addr : Word) : Statement (.erasePage addr) := fun c h => need_cmd c _ h
theorem readAddr (addr : Word) : Statement (.readAddr addr) := fun c h => need_cmd c _ h
theorem readMax (addr : Word) : Statement (.readMax addr) := fun c h => need_cmd c _ h
theorem writeRow (addr : Word) (words : List Word) : Statement (.writeRow addr words) :=
  fun c h => need_cmd c _ h
theorem writeMax (addr : Word) (words : List Word) : Statement (.writeMax addr words) :=
  fun c h => need_cmd c _ h
theorem startApp : Statement .startApp := fun c h => need_cmd c _ h

end Sys2Proof.Laws.ArgCount
end

