-- ==== Sys2Proof/Laws/Step.lean ====
section
/-! SUPPORT. What a command and a step can do, said once as inversion lemmas, so that no proof about
the whole machine unfolds `exec` or `loopStep`. -/

namespace Sys2Proof.Machine

/-- Everything a command can do. Besides a refused command (no effect), a command is a reply, reads
and then a reply, an erase with or without the stub row, row writes, or the hand-over. -/
theorem exec_cases (i : Instr) (s : State) :
    exec i s = .next s ∨
    (∃ cmd args, exec i s = .next (encodeReply cmd args s)) ∨
    (∃ cmd args as, exec i s = .next (encodeReply cmd args (flashReadAll as s).2)) ∨
    (∃ A, i = .erasePage A ∧ eraseRefused s.cfg A = false ∧
      exec i s = .next (flashErase A s)) ∨
    (∃ A, i = .erasePage A ∧ eraseRefused s.cfg A = false ∧ inZeroPage s.cfg A = true ∧
      exec i s = .next (flashWriteRow 0#32 (stubRow s.cfg) (flashErase A s))) ∨
    (∃ A ws, i = .writeRow A ws ∧ writeRefused s.cfg A = false ∧
      exec i s = .next (flashWriteRow A (forceStub s.cfg A ws) s)) ∨
    (∃ A ws, i = .writeMax A ws ∧
      (∀ k < s.cfg.maxRows, writeRefused s.cfg (rowAddr s.cfg A k) = false) ∧
      exec i s = .next (flashWriteRows (writeMaxRows s.cfg A ws) s)) ∨
    (i = .startApp ∧ exec i s = .next (handOver s)) := by
  cases i with
  | readPlatform => exact .inr (.inl ⟨_, _, rfl⟩)
  | readVersion => exact .inr (.inl ⟨_, _, rfl⟩)
  | readRowLen => exact .inr (.inl ⟨_, _, rfl⟩)
  | readPageLen => exact .inr (.inl ⟨_, _, rfl⟩)
  | readProgLen => exact .inr (.inl ⟨_, _, rfl⟩)
  | readMaxProgSize => exact .inr (.inl ⟨_, _, rfl⟩)
  | readAppStartAddr => exact .inr (.inl ⟨_, _, rfl⟩)
  | readBootStartAddr => exact .inr (.inl ⟨_, _, rfl⟩)
  | erasePage A =>
    cases hr : eraseRefused s.cfg A with
    | true => exact .inl (by simp [exec, execErasePage, hr])
    | false =>
      cases hz : inZeroPage s.cfg A with
      | false =>
        exact .inr (.inr (.inr (.inl ⟨A, rfl, hr, by simp [exec, execErasePage, hr, hz]⟩)))
      | true =>
        exact .inr (.inr (.inr (.inr (.inl
          ⟨A, rfl, hr, hz, by simp [exec, execErasePage, hr, hz]⟩))))
  | readAddr A => exact .inr (.inr (.inl ⟨0x20#8, le32 (flashAnswer s A), [A], rfl⟩))
  | readMax A => exact .inr (.inr (.inl ⟨_, _, readMaxAddrs s.cfg A, rfl⟩))
  | writeRow A ws =>
    cases hr : writeRefused s.cfg A with
    | true => exact .inl (by simp [exec, execWriteRow, hr])
    | false =>
      exact .inr (.inr (.inr (.inr (.inr (.inl ⟨A, ws, rfl, hr, by simp [exec, execWriteRow, hr]⟩)))))
  | writeMax A ws =>
    cases hr : (List.range s.cfg.maxRows).any
        (fun k => writeRefused s.cfg (rowAddr s.cfg A k)) with
    | true => exact .inl (by simp [exec, execWriteMax, hr])
    | false =>
      refine .inr (.inr (.inr (.inr (.inr (.inr (.inl ⟨A, ws, rfl, ?_, ?_⟩))))))
      · simpa using hr
      · simp only [exec, execWriteMax, hr]
        rfl
  | startApp => exact .inr (.inr (.inr (.inr (.inr (.inr (.inr ⟨rfl, rfl⟩))))))

/-- The dispatcher either ignores the message or runs the command it decodes to. -/
theorem dispatch_cases (m : List Byte) (s : State) :
    (∃ e, decode s.cfg m = .error e ∧ dispatch m s = .next s) ∨
    (∃ i, decode s.cfg m = .ok i ∧ dispatch m s = exec i s) := by
  unfold dispatch
  cases h : decode s.cfg m with
  | error e => exact .inl ⟨e, rfl, rfl⟩
  | ok i => exact .inr ⟨i, rfl, rfl⟩

/-- Everything one received byte can do. -/
theorem decodeStep_cases (b : Byte) (s : State) :
    (s.rxState = .waitForStart ∧ b = startMarker ∧
      decodeStep b s = .next { s with rxState := .verbatim, rxLen := 0 }) ∨
    (s.rxState = .waitForStart ∧ b ≠ startMarker ∧ decodeStep b s = .next s) ∨
    (s.rxState = .verbatim ∧ b = escMarker ∧
      decodeStep b s = .next { s with rxState := .escaped }) ∨
    (s.rxState = .verbatim ∧ b = endMarker ∧ completedMessage s = none ∧
      decodeStep b s = .next (decoderIdle s)) ∨
    (∃ m, s.rxState = .verbatim ∧ b = endMarker ∧ completedMessage s = some m ∧
      decodeStep b s = onNext decoderIdle (dispatch m s)) ∨
    (∃ d, ((s.rxState = .verbatim ∧ b ≠ escMarker ∧ b ≠ endMarker ∧ d = b) ∨
        (s.rxState = .escaped ∧ d = b ^^^ escXor)) ∧
      decodeStep b s = .next (append d s)) := by
  unfold decodeStep
  cases hs : s.rxState with
  | waitForStart =>
    by_cases hb : b = startMarker
    · exact .inl ⟨rfl, hb, by simp [hb]⟩
    · exact .inr (.inl ⟨rfl, hb, by simp [hb]⟩)
  | verbatim =>
    by_cases he : b = escMarker
    · exact .inr (.inr (.inl ⟨rfl, he, by simp [he]⟩))
    · by_cases hb : b = endMarker
      · have hne : ¬ endMarker = escMarker := by decide
        cases hm : completedMessage s with
        | none =>
          exact .inr (.inr (.inr (.inl ⟨rfl, hb, rfl, by simp [hb, hne, complete, hm]⟩)))
        | some m =>
          exact .inr (.inr (.inr (.inr (.inl ⟨m, rfl, hb, rfl, by simp [hb, hne, complete, hm]⟩))))
      · exact .inr (.inr (.inr (.inr (.inr ⟨b, .inl ⟨rfl, he, hb, rfl⟩, by simp [he, hb]⟩))))
  | escaped => exact .inr (.inr (.inr (.inr (.inr ⟨_, .inr ⟨rfl, rfl⟩, rfl⟩))))

/-- The step of a listening block, with its decision in the open. -/
theorem step_listening {s : State} (hc : s.cfg.WellFormed) (hb : s.bootState = .listening) :
    step s =
      if windowExpired s.cfg (s.elapsed + (nextInput s).tickAdvance) (nextInput s).abort = true then
        .next (handOver (sampled s))
      else
        (match (nextInput s).rx with
          | none => .next (sampled s)
          | some b => decodeStep b (sampled s)) := by
  unfold step loopStep
  rw [if_pos hc, hb]
  rfl

theorem step_expired {s : State} (hc : s.cfg.WellFormed) (hb : s.bootState = .listening)
    (hw : windowExpired s.cfg (s.elapsed + (nextInput s).tickAdvance) (nextInput s).abort = true) :
    step s = .next (handOver (sampled s)) := by
  rw [step_listening hc hb, if_pos hw]

theorem step_of_no_byte {s : State} (hc : s.cfg.WellFormed) (hb : s.bootState = .listening)
    (hw : windowExpired s.cfg (s.elapsed + (nextInput s).tickAdvance) (nextInput s).abort = false)
    (hr : (nextInput s).rx = none) : step s = .next (sampled s) := by
  rw [step_listening hc hb, if_neg (by simp [hw]), hr]

/-- A listening step whose window is open and whose byte is `b` is the decoder on `b`. -/
theorem step_of_byte {s : State} {b : Byte} (hc : s.cfg.WellFormed) (hb : s.bootState = .listening)
    (hw : windowExpired s.cfg (s.elapsed + (nextInput s).tickAdvance) (nextInput s).abort = false)
    (hr : (nextInput s).rx = some b) : step s = decodeStep b (sampled s) := by
  rw [step_listening hc hb, if_neg (by simp [hw]), hr]

/-- Everything a step that answers a next state can do. -/
theorem step_cases {s t : State} (h : step s = .next t) :
    s.cfg.WellFormed ∧ s.bootState = .listening ∧
    ((windowExpired s.cfg (s.elapsed + (nextInput s).tickAdvance) (nextInput s).abort = true ∧
        t = handOver (sampled s)) ∨
      (windowExpired s.cfg (s.elapsed + (nextInput s).tickAdvance) (nextInput s).abort = false ∧
        (((nextInput s).rx = none ∧ t = sampled s) ∨
          ∃ b, (nextInput s).rx = some b ∧ decodeStep b (sampled s) = .next t))) := by
  by_cases hc : s.cfg.WellFormed
  · refine ⟨hc, ?_⟩
    cases hb : s.bootState with
    | running =>
      unfold step loopStep at h
      rw [if_pos hc, hb] at h
      cases h
    | listening =>
      refine ⟨rfl, ?_⟩
      cases hw : windowExpired s.cfg (s.elapsed + (nextInput s).tickAdvance) (nextInput s).abort with
      | true =>
        rw [step_expired hc hb hw] at h
        exact .inl ⟨rfl, (Host.Outcome.next.inj h).symm⟩
      | false =>
        refine .inr ⟨rfl, ?_⟩
        cases hr : (nextInput s).rx with
        | none =>
          rw [step_of_no_byte hc hb hw hr] at h
          exact .inl ⟨rfl, (Host.Outcome.next.inj h).symm⟩
        | some b => exact .inr ⟨b, rfl, by rw [← step_of_byte hc hb hw hr, h]⟩
  · unfold step loopStep at h
    rw [if_neg hc] at h
    cases h

/-! ### A reset inside a step -/

theorem newEvents_eq {s t : State} {es : List Event} (h : t.trace = s.trace ++ es) :
    newEvents s t = es := by
  simp [newEvents, h]

/-- Everything a reset inside what leads from `s` to `t` leaves. -/
theorem cutShort_next {s t : State} {es : List Event} (n : Nat) (h : t.trace = s.trace ++ es) :
    cutShort n s (.next t) =
      .next { State.reboot t with flash := flashAfterEvents s.cfg (es.take n) s.flash } := by
  simp [cutShort, newEvents_eq h]

end Sys2Proof.Machine
end

