-- ==== Sys2Proof/Tests/Slice0.lean ====
section
/-! SUPPORT. Tests of one step each, with expected values from spec/95_test_vectors.md and
spec/opcode_table.json; the checks of WellFormed, each with a parameter set or an instruction it
refuses; and for every statement with hypotheses a state and operands that meet them. -/

namespace Sys2Proof.Tests

-- One theorem after the other: each thread of its own would reserve a stack.
set_option Elab.async false

open Sys2Proof Sys2Proof.Machine

/-! ### Helpers -/

/-- Configuration T0 of 95_test_vectors.md section 0. -/
def configT0 : Config := { Config.vectorT with ivtBase := 0x00000000#32 }

/-- A parameter set whose largest write request has 65529 + 4 argument bytes or more. -/
def bigConfig (words row : Nat) : Config :=
  { Config.vectorT with
    rowWords := row, pageWords := row, maxWords := words, rxCap := 9 + 4 * words }

/-- A parameter set whose pages do not divide the address space. -/
def oddConfig : Config := { Config.vectorT with wordStep := 3 }

/-- A parameter set whose last row runs past the end of the address space. -/
def wrapConfig : Config := { configT0 with rowWords := 3, pageWords := 6, maxWords := 6 }

/-- A parameter set with the longest page. -/
def longPages : Config :=
  { Config.vectorT with pageWords := 0xFFFF, rowWords := 3, maxWords := 3 }

/-- The next state of an outcome. -/
def nextOf : Host.Outcome State Fault Refusal → Option State
  | .next s => some s
  | .fault _ => none
  | .refused _ => none

theorem next_of_nextOf {o : Host.Outcome State Fault Refusal} {t : State} (h : nextOf o = some t) :
    o = .next t := by
  cases o with
  | next s => simpa [nextOf] using h
  | fault r => cases h
  | refused r => cases h

/-- An outcome that is a next state has one. -/
theorem exists_next {o : Host.Outcome State Fault Refusal} (h : (nextOf o).isSome = true) :
    ∃ t, o = .next t := by
  cases o with
  | next s => exact ⟨s, rfl⟩
  | fault r => cases h
  | refused r => cases h

/-- What one step leaves in the trace and the sums. -/
def seen (o : Host.Outcome State Fault Refusal) : Option (List Event × Byte × Byte) :=
  (nextOf o).map (fun t => (t.trace, t.sum1, t.sum2))

/-- The reset state of a block with these parameters, this flash and this body received but for its
end marker. -/
def staged (c : Config) (flash : Memory Word) (body : List Byte) : State :=
  stageBody body { State.resetWith c with flash := flash }

/-- The reset state of T with one environment answer. -/
def answered (elapsed tick : Nat) (abort : Bool) (rx : Option Byte) : State :=
  { State.reset with
    elapsed := elapsed, inputs := [{ tickAdvance := tick, abort := abort, rx := rx }] }

/-- The reset state of T in a frame, with these bytes received. -/
def received (rxState : RxState) (body : List Byte) : State :=
  { State.reset with rxState := rxState, rxLen := body.length, buf := Memory.writeBlock 1 [] 0 body }

/-- The events of a reply after the watchdog service. -/
def replied (bytes : List Byte) : List Event := Event.wdt :: bytes.map Event.tx

/-! ### Decoding: the wire examples of the opcode table (T), one or more a family bit by bit -/

theorem test_decode_readPlatform :
    decodeFrame Config.vectorT
      [0xF7#8, 0x01#8, 0x00#8, 0x00#8, 0x01#8, 0x03#8, 0x7F#8] =
      .ok .readPlatform := by
  decide +kernel

theorem test_decode_readVersion :
    decodeFrame Config.vectorT
      [0xF7#8, 0x01#8, 0x00#8, 0x01#8, 0x02#8, 0x04#8, 0x7F#8] =
      .ok .readVersion := by
  decide +kernel

theorem test_decode_readRowLen :
    decodeFrame Config.vectorT
      [0xF7#8, 0x01#8, 0x00#8, 0x02#8, 0x03#8, 0x05#8, 0x7F#8] =
      .ok .readRowLen := by
  decide +kernel

theorem test_decode_readPageLen :
    decodeFrame Config.vectorT
      [0xF7#8, 0x01#8, 0x00#8, 0x03#8, 0x04#8, 0x06#8, 0x7F#8] =
      .ok .readPageLen := by
  decide +kernel

theorem test_decode_readProgLen :
    decodeFrame Config.vectorT
      [0xF7#8, 0x01#8, 0x00#8, 0x04#8, 0x05#8, 0x07#8, 0x7F#8] =
      .ok .readProgLen := by
  decide +kernel

theorem test_decode_readMaxProgSize :
    decodeFrame Config.vectorT
      [0xF7#8, 0x01#8, 0x00#8, 0x05#8, 0x06#8, 0x08#8, 0x7F#8] =
      .ok .readMaxProgSize := by
  decide +kernel

theorem test_decode_readAppStartAddr :
    decodeFrame Config.vectorT
      [0xF7#8, 0x01#8, 0x00#8, 0x06#8, 0x07#8, 0x09#8, 0x7F#8] =
      .ok .readAppStartAddr := by
  decide +kernel

theorem test_decode_readBootStartAddr :
    decodeFrame Config.vectorT
      [0xF7#8, 0x01#8, 0x00#8, 0x07#8, 0x08#8, 0x0A#8, 0x7F#8] =
      .ok .readBootStartAddr := by
  decide +kernel

theorem test_decode_erasePage :
    decodeFrame Config.vectorT
      [0xF7#8, 0x05#8, 0x00#8, 0x10#8, 0x00#8, 0x10#8, 0x00#8, 0x00#8, 0x25#8, 0xA3#8, 0x7F#8] =
      .ok (.erasePage 0x00001000#32) := by
  decide +kernel

theorem test_decode_readAddr :
    decodeFrame Config.vectorT
      [0xF7#8, 0x05#8, 0x00#8, 0x20#8, 0x00#8, 0x03#8, 0x00#8, 0x00#8, 0x28#8, 0xCC#8, 0x7F#8] =
      .ok (.readAddr 0x00000300#32) := by
  decide +kernel

theorem test_decode_readMax :
    decodeFrame Config.vectorT
      [0xF7#8, 0x05#8, 0x00#8, 0x21#8, 0x00#8, 0x03#8, 0x00#8, 0x00#8, 0x29#8, 0xD1#8, 0x7F#8] =
      .ok (.readMax 0x00000300#32) := by
  decide +kernel

theorem test_decode_writeRow :
    decodeFrame Config.vectorT
      [0xF7#8, 0x15#8, 0x00#8, 0x30#8, 0x00#8, 0x03#8, 0x00#8, 0x00#8, 0x11#8, 0x11#8, 0x11#8,
        0x00#8, 0x22#8, 0x22#8, 0x22#8, 0x00#8, 0x33#8, 0x33#8, 0x33#8, 0x00#8, 0x44#8, 0x44#8,
        0x44#8, 0x00#8, 0x46#8, 0xFE#8, 0x7F#8] =
      .ok (.writeRow 0x00000300#32
        [0x00111111#32, 0x00222222#32, 0x00333333#32, 0x00444444#32]) := by
  decide +kernel

theorem test_decode_writeMax :
    decodeFrame Config.vectorT
      [0xF7#8, 0x25#8, 0x00#8, 0x31#8, 0x00#8, 0x03#8, 0x00#8, 0x00#8, 0x00#8, 0x00#8, 0xA0#8,
        0x00#8, 0x01#8, 0x00#8, 0xA0#8, 0x00#8, 0x02#8, 0x00#8, 0xA0#8, 0x00#8, 0x03#8, 0x00#8,
        0xA0#8, 0x00#8, 0x04#8, 0x00#8, 0xA0#8, 0x00#8, 0x05#8, 0x00#8, 0xA0#8, 0x00#8, 0x06#8,
        0x00#8, 0xA0#8, 0x00#8, 0x07#8, 0x00#8, 0xA0#8, 0x00#8, 0x75#8, 0x71#8, 0x7F#8] =
      .ok (.writeMax 0x00000300#32
        [0x00A00000#32, 0x00A00001#32, 0x00A00002#32, 0x00A00003#32,
          0x00A00004#32, 0x00A00005#32, 0x00A00006#32, 0x00A00007#32]) := by
  decide +kernel

theorem test_decode_startApp :
    decodeFrame Config.vectorT
      [0xF7#8, 0x01#8, 0x00#8, 0x40#8, 0x41#8, 0x43#8, 0x7F#8] =
      .ok .startApp := by
  decide +kernel

/-- `CMD_READ_VERSION`, R95 bit by bit: `cmd = 0000 0001`. -/
theorem test_bits_readVersion :
    decode Config.vectorT [0b00000001#8, 0b00000000#8, 0b00000001#8] = .ok .readVersion := by
  decide +kernel

/-- `CMD_ERASE_PAGE`: `cmd = 0001 0000`, then bits 7..0 of the address first. -/
theorem test_bits_erasePage :
    decode Config.vectorT
      [0b00000101#8, 0b00000000#8, 0b00010000#8, 0b00000001#8, 0b00000010#8, 0b00000100#8,
        0b10000000#8] = .ok (.erasePage 0b10000000000001000000001000000001#32) := by
  decide +kernel

/-- `CMD_READ_MAX`: `cmd = 0010 0001`. -/
theorem test_bits_readMax :
    decode Config.vectorT
      [0b00000101#8, 0b00000000#8, 0b00100001#8, 0b11110000#8, 0b00001111#8, 0b10101010#8,
        0b01010101#8] = .ok (.readMax 0b01010101101010100000111111110000#32) := by
  decide +kernel

/-- `CMD_START_APP`: `cmd = 0100 0000`. -/
theorem test_bits_startApp :
    decode Config.vectorT [0b00000001#8, 0b00000000#8, 0b01000000#8] = .ok .startApp := by
  decide +kernel

/-- Messages that 95_test_vectors.md section 6 says are ignored, by the check that ignores them. -/
theorem test_decode_rejects :
    decode Config.vectorT [0x02#8, 0x00#8, 0x01#8] = .error .lengthMismatch ∧
    decode Config.vectorT [0x00#8, 0x00#8, 0x01#8] = .error .lengthMismatch ∧
    decode Config.vectorT [0x02#8, 0x00#8, 0x40#8, 0x00#8] = .error .wrongArgCount ∧
    decode Config.vectorT [0x04#8, 0x00#8, 0x10#8, 0x00#8, 0x03#8, 0x00#8] =
      .error .wrongArgCount ∧
    decode Config.vectorT [0x01#8, 0x00#8, 0x08#8] = .error .unknownCommand ∧
    decode Config.vectorT [0x01#8, 0x00#8, 0xFF#8] = .error .unknownCommand ∧
    decode Config.vectorT [0x01#8, 0x00#8] = .error .noCommandByte := by
  decide +kernel

/-- 95_test_vectors.md section 5, third frame from the end: all three markers as argument bytes and in
the trailer. -/
theorem test_frame_escapes :
    frame 0x20#8 [0xF7#8, 0xF6#8, 0x7F#8, 0x00#8] =
      [0xF7#8, 0x05#8, 0x00#8, 0x20#8, 0xF6#8, 0xD7#8, 0xF6#8, 0xD6#8, 0xF6#8, 0x5F#8, 0x00#8,
        0x91#8, 0xF6#8, 0x5F#8, 0x7F#8] := by
  decide +kernel

/-- 95_test_vectors.md section 4. -/
theorem test_f16_vectors :
    f16 [0xFF#8, 0x01#8] = 0xFF00#16 ∧ f16 [0x80#8, 0x80#8] = 0x8000#16 ∧
    f16 [0x01#8, 0x02#8] = 0x0403#16 ∧ f16 [0x02#8, 0x01#8] = 0x0503#16 ∧
    f16 [0xF7#8, 0x7F#8, 0xF6#8] = 0xD96C#16 ∧
    f16 (List.replicate 16 0x01#8) = 0x8810#16 := by
  decide +kernel

/-- Every row of the opcode table, its command byte as the table numbers it. -/
theorem test_table_words :
    (List.range 256).filterMap (decodeTableWord 8) =
      [.readPlatform, .readVersion, .readRowLen, .readPageLen, .readProgLen, .readMaxProgSize,
        .readAppStartAddr, .readBootStartAddr, .erasePage 0#32, .readAddr 0#32, .readMax 0#32,
        .writeRow 0#32 (List.replicate 4 0#32), .writeMax 0#32 (List.replicate 8 0#32),
        .startApp] := by
  decide +kernel

/-- A staged table word runs as the next step: row length at reset. -/
theorem test_withFetchWord_runs :
    seen (step (State.reset.withFetchWord 8 0x02)) =
      some (replied [0xF7#8, 0x03#8, 0x00#8, 0x02#8, 0x04#8, 0x00#8, 0x09#8, 0x1D#8, 0x7F#8],
        0x2F#8, 0x5E#8) := by
  decide +kernel

/-- Every table row's word completes as the first instruction after reset. -/
theorem test_withFetchWord_all :
    ∀ cmd ∈ knownCommands, (nextOf (step (State.reset.withFetchWord 8 cmd.toNat))).isSome = true := by
  decide +kernel

/-! ### One step of each command (95_test_vectors.md sections 6 to 8) -/

/-- Section 6. -/
theorem test_step_readPlatform :
    seen (step (staged Config.vectorT []
        [0x01#8, 0x00#8, 0x00#8, 0x01#8, 0x03#8])) =
      some (replied [0xF7#8, 0x04#8, 0x00#8, 0x00#8, 0x74#8, 0x70#8, 0x00#8, 0xE8#8, 0x54#8,
        0x7F#8], 0x24#8, 0x48#8) := by
  decide +kernel

/-- Section 6. -/
theorem test_step_readVersion :
    seen (step (staged Config.vectorT []
        [0x01#8, 0x00#8, 0x01#8, 0x02#8, 0x04#8])) =
      some (replied [0xF7#8, 0x05#8, 0x00#8, 0x01#8, 0x30#8, 0x2E#8, 0x31#8, 0x00#8, 0x95#8, 0xD4#8,
        0x7F#8], 0xFE#8, 0xFC#8) := by
  decide +kernel

/-- Section 6. -/
theorem test_step_readRowLen :
    seen (step (staged Config.vectorT []
        [0x01#8, 0x00#8, 0x02#8, 0x03#8, 0x05#8])) =
      some (replied [0xF7#8, 0x03#8, 0x00#8, 0x02#8, 0x04#8, 0x00#8, 0x09#8, 0x1D#8, 0x7F#8],
        0x2F#8, 0x5E#8) := by
  decide +kernel

/-- Section 6. -/
theorem test_step_readPageLen :
    seen (step (staged Config.vectorT []
        [0x01#8, 0x00#8, 0x03#8, 0x04#8, 0x06#8])) =
      some (replied [0xF7#8, 0x03#8, 0x00#8, 0x03#8, 0x08#8, 0x00#8, 0x0E#8, 0x28#8, 0x7F#8],
        0x44#8, 0x88#8) := by
  decide +kernel

/-- Section 6. -/
theorem test_step_readProgLen :
    seen (step (staged Config.vectorT []
        [0x01#8, 0x00#8, 0x04#8, 0x05#8, 0x07#8])) =
      some (replied [0xF7#8, 0x05#8, 0x00#8, 0x04#8, 0x00#8, 0x10#8, 0x00#8, 0x00#8, 0x19#8, 0x67#8,
        0x7F#8], 0x99#8, 0x32#8) := by
  decide +kernel

/-- Section 6. -/
theorem test_step_readMaxProgSize :
    seen (step (staged Config.vectorT []
        [0x01#8, 0x00#8, 0x05#8, 0x06#8, 0x08#8])) =
      some (replied [0xF7#8, 0x03#8, 0x00#8, 0x05#8, 0x08#8, 0x00#8, 0x10#8, 0x2E#8, 0x7F#8],
        0x4E#8, 0x9C#8) := by
  decide +kernel

/-- Section 6. -/
theorem test_step_readAppStartAddr :
    seen (step (staged Config.vectorT []
        [0x01#8, 0x00#8, 0x06#8, 0x07#8, 0x09#8])) =
      some (replied [0xF7#8, 0x05#8, 0x00#8, 0x06#8, 0x00#8, 0x02#8, 0x00#8, 0x00#8, 0x0D#8, 0x47#8,
        0x7F#8], 0x61#8, 0xC2#8) := by
  decide +kernel

/-- Section 6. -/
theorem test_step_readBootStartAddr :
    seen (step (staged Config.vectorT []
        [0x01#8, 0x00#8, 0x07#8, 0x08#8, 0x0A#8])) =
      some (replied [0xF7#8, 0x05#8, 0x00#8, 0x07#8, 0x00#8, 0x01#8, 0x00#8, 0x00#8, 0x0D#8, 0x49#8,
        0x7F#8], 0x63#8, 0xC6#8) := by
  decide +kernel

/-- Section 7.1: the last address of the zero page. -/
theorem test_step_erasePage :
    seen (step (staged Config.vectorT []
        [0x05#8, 0x00#8, 0x10#8, 0x0F#8, 0x00#8, 0x00#8, 0x00#8, 0x24#8, 0xAF#8])) =
      some ([.wdt, .flashErase 0x0000000F#32, .flashWriteRow 0x00000000#32 [0x00040100#32,
        0x00000000#32, 0x00FFFFFF#32, 0x00FFFFFF#32]], 0x00#8, 0x00#8) := by
  decide +kernel

/-- Section 7.1: the last guarded address. -/
theorem test_step_erasePage_guard :
    seen (step (staged Config.vectorT []
        [0x05#8, 0x00#8, 0x10#8, 0xFF#8, 0x01#8, 0x00#8, 0x00#8, 0x15#8, 0x72#8])) =
      some ([.wdt], 0x00#8, 0x00#8) := by
  decide +kernel

/-- Section 7.2: reads inside the guard range are allowed. -/
theorem test_step_readAddr_guard :
    seen (step (staged Config.vectorT [(0x100, 0x12345678#32)]
        [0x05#8, 0x00#8, 0x20#8, 0x00#8, 0x01#8, 0x00#8, 0x00#8, 0x26#8, 0xC6#8])) =
      some ([.wdt, .flashRead 0x00000100#32 0x12345678#32] ++ [0xF7#8, 0x05#8, 0x00#8, 0x20#8,
        0x78#8, 0x56#8, 0x34#8, 0x12#8, 0x39#8, 0x1F#8, 0x7F#8].map Event.tx, 0x91#8, 0x22#8) := by
  decide +kernel

/-- The flash of section 7.2's wrapping read. -/
def wrapFlash : Memory Word :=
  [(0x0, 0x00040100#32), (0x2, 0x00000000#32), (0x4, 0x00C00004#32), (0x6, 0x00C00006#32), (0x8,
    0x00C00008#32), (0xA, 0x00C0000A#32), (0xFFFFFFFC, 0x00C0FFFC#32), (0xFFFFFFFE, 0x00C0FFFE#32)]

/-- Section 7.2: a block that runs past the end of the address space wraps. -/
theorem test_step_readMax_wraps :
    seen (step (staged Config.vectorT wrapFlash
        [0x05#8, 0x00#8, 0x21#8, 0xFC#8, 0xFF#8, 0xFF#8, 0xFF#8, 0x1F#8, 0xB2#8])) =
      some ([.wdt, .flashRead 0xFFFFFFFC#32 0x00C0FFFC#32, .flashRead 0xFFFFFFFE#32 0x00C0FFFE#32,
        .flashRead 0x00000000#32 0x00040100#32, .flashRead 0x00000002#32 0x00000000#32,
        .flashRead 0x00000004#32 0x00C00004#32, .flashRead 0x00000006#32 0x00C00006#32,
        .flashRead 0x00000008#32 0x00C00008#32, .flashRead 0x0000000A#32 0x00C0000A#32] ++ [0xF7#8,
        0x21#8, 0x00#8, 0x21#8, 0xFC#8, 0xFF#8, 0xC0#8, 0x00#8, 0xFE#8, 0xFF#8, 0xC0#8, 0x00#8,
        0x00#8, 0x01#8, 0x04#8, 0x00#8, 0x00#8, 0x00#8, 0x00#8, 0x00#8, 0x04#8, 0x00#8, 0xC0#8,
        0x00#8, 0x06#8, 0x00#8, 0xC0#8, 0x00#8, 0x08#8, 0x00#8, 0xC0#8, 0x00#8, 0x0A#8, 0x00#8,
        0xC0#8, 0x00#8, 0xDB#8, 0x31#8, 0x7F#8].map Event.tx, 0xE7#8, 0xCE#8) := by
  decide +kernel

/-- Section 7.3 (T0): the stub is forced at row address 0. -/
theorem test_step_writeRow_stub :
    seen (step (staged configT0 []
        [0x15#8, 0x00#8, 0x30#8, 0x00#8, 0x00#8, 0x00#8, 0x00#8, 0x11#8, 0x11#8, 0x11#8, 0x00#8,
          0x22#8, 0x22#8, 0x22#8, 0x00#8, 0x33#8, 0x33#8, 0x33#8, 0x00#8, 0x44#8, 0x44#8, 0x44#8,
          0x00#8, 0x43#8, 0xC5#8])) =
      some ([.wdt, .flashWriteRow 0x00000000#32 [0x00040100#32, 0x00000000#32, 0x00333333#32,
        0x00444444#32]], 0x00#8, 0x00#8) := by
  decide +kernel

/-- Section 7.3: `3 < IVT_BASE`. -/
theorem test_step_writeRow_ivt :
    seen (step (staged Config.vectorT []
        [0x15#8, 0x00#8, 0x30#8, 0x03#8, 0x00#8, 0x00#8, 0x00#8, 0x11#8, 0x11#8, 0x11#8, 0x00#8,
          0x22#8, 0x22#8, 0x22#8, 0x00#8, 0x33#8, 0x33#8, 0x33#8, 0x00#8, 0x44#8, 0x44#8, 0x44#8,
          0x00#8, 0x46#8, 0x01#8])) =
      some ([.wdt], 0x00#8, 0x00#8) := by
  decide +kernel

/-- Section 7.4 (T0): the second row lands on address 0. -/
theorem test_step_writeMax_wraps :
    seen (step (staged configT0 []
        [0x25#8, 0x00#8, 0x31#8, 0xF8#8, 0xFF#8, 0xFF#8, 0xFF#8, 0x00#8, 0x00#8, 0xA0#8, 0x00#8,
          0x01#8, 0x00#8, 0xA0#8, 0x00#8, 0x02#8, 0x00#8, 0xA0#8, 0x00#8, 0x03#8, 0x00#8, 0xA0#8,
          0x00#8, 0x04#8, 0x00#8, 0xA0#8, 0x00#8, 0x05#8, 0x00#8, 0xA0#8, 0x00#8, 0x06#8, 0x00#8,
          0xA0#8, 0x00#8, 0x07#8, 0x00#8, 0xA0#8, 0x00#8, 0x67#8, 0x82#8])) =
      some ([.wdt, .flashWriteRow 0xFFFFFFF8#32 [0x00A00000#32, 0x00A00001#32, 0x00A00002#32,
        0x00A00003#32], .flashWriteRow 0x00000000#32 [0x00040100#32, 0x00000000#32, 0x00A00006#32,
        0x00A00007#32]], 0x00#8, 0x00#8) := by
  decide +kernel

/-- Section 7.4: the second row is guarded, so the first is not written either. -/
theorem test_step_writeMax_guard :
    seen (step (staged Config.vectorT []
        [0x25#8, 0x00#8, 0x31#8, 0xF8#8, 0x00#8, 0x00#8, 0x00#8, 0x00#8, 0x00#8, 0xA0#8, 0x00#8,
          0x01#8, 0x00#8, 0xA0#8, 0x00#8, 0x02#8, 0x00#8, 0xA0#8, 0x00#8, 0x03#8, 0x00#8, 0xA0#8,
          0x00#8, 0x04#8, 0x00#8, 0xA0#8, 0x00#8, 0x05#8, 0x00#8, 0xA0#8, 0x00#8, 0x06#8, 0x00#8,
          0xA0#8, 0x00#8, 0x07#8, 0x00#8, 0xA0#8, 0x00#8, 0x6A#8, 0xE8#8])) =
      some ([.wdt], 0x00#8, 0x00#8) := by
  decide +kernel

/-- Section 8, B7. -/
theorem test_step_startApp :
    seen (step (staged Config.vectorT []
        [0x01#8, 0x00#8, 0x40#8, 0x41#8, 0x43#8])) =
      some ([.wdt, .startApp 0x00000200#32], 0x00#8, 0x00#8) := by
  decide +kernel

/-- Section 9, P2 under T0, request 2: the row that the flash model holds afterwards. -/
theorem test_flash_after_writeRow :
    (nextOf (exec (.writeRow 0x00000000#32
        [0x00111111#32, 0x00222222#32, 0x00333333#32, 0x00444444#32])
        (State.resetWith configT0))).map State.flash =
      some [(0, 0x00040100#32), (2, 0x00000000#32), (4, 0x00333333#32), (6, 0x00444444#32)] := by
  decide +kernel

/-- Section 9, P2, request 1: what the erase of the zero page leaves in its eight words. -/
theorem test_flash_after_erase :
    (nextOf (exec (.erasePage 0x00000000#32) State.reset)).map State.flash =
      some [(0, 0x00040100#32), (2, 0x00000000#32), (4, 0x00FFFFFF#32), (6, 0x00FFFFFF#32),
        (8, 0x00FFFFFF#32), (10, 0x00FFFFFF#32), (12, 0x00FFFFFF#32), (14, 0x00FFFFFF#32)] := by
  decide +kernel

/-- R66: word `i` of a row is at `(A + i * WORD_STEP) mod 2^32`, also past the end of the address
space. -/
theorem test_flash_row_wraps :
    (nextOf (exec (.writeRow 0xFFFFFFFC#32 [0x000000AA#32, 0x000000BB#32, 0x000000CC#32])
        { State.resetWith wrapConfig with flash := [(1, 0#32), (2, 0x000000DD#32)] })).map
        State.flash =
      some [(0, 0x000000CC#32), (2, 0x000000DD#32), (0xFFFFFFFC, 0x000000AA#32),
        (0xFFFFFFFE, 0x000000BB#32)] := by
  decide +kernel

/-- R66: every word of the erased page answers the erased value, also past the end of the address
space. -/
theorem test_flash_page_wraps :
    (nextOf (exec (.erasePage 0xFFFFFFFF#32) (State.resetWith oddConfig))).map State.flash =
      some [(2, 0x00FFFFFF#32), (5, 0x00FFFFFF#32), (0xFFFFFFF0, 0x00FFFFFF#32),
        (0xFFFFFFF3, 0x00FFFFFF#32), (0xFFFFFFF6, 0x00FFFFFF#32), (0xFFFFFFF9, 0x00FFFFFF#32),
        (0xFFFFFFFC, 0x00FFFFFF#32), (0xFFFFFFFF, 0x00FFFFFF#32)] := by
  decide +kernel

/-- R248: "Between the two the reset vector is erased". -/
theorem test_reset_between_erase_and_stub :
    (nextOf (cutShort 1 State.reset (exec (.erasePage 0x00000000#32) State.reset))).map State.flash =
      some ((List.range 8).map (fun i => (2 * i, 0x00FFFFFF#32))) := by
  decide +kernel

/-- R252: a reset between the two rows of a maximum block. -/
theorem test_reset_between_rows :
    (nextOf (cutShort 1 State.reset (exec (.writeMax 0x00000300#32
        (List.replicate 8 0x00000077#32)) State.reset))).map State.flash =
      some [(0x300, 0x00000077#32), (0x302, 0x00000077#32), (0x304, 0x00000077#32),
        (0x306, 0x00000077#32)] := by
  decide +kernel

/-! ### The control loop (section 8) and the decoder (sections 2, 3) -/

/-- What one step leaves in the trace and the mode. -/
def loopSeen (o : Host.Outcome State Fault Refusal) : Option (List Event × BootState × RxState × Nat) :=
  (nextOf o).map (fun t => (t.trace, t.bootState, t.rxState, t.rxLen))

/-- B2: 1000 does not exceed 1000. -/
theorem test_loop_at_threshold :
    loopSeen (step (answered 0 1000 false none)) =
      some ([.wdt], .listening, .waitForStart, 0) := by
  decide +kernel

/-- B6: past the threshold the byte is not taken. -/
theorem test_loop_expiry_wins :
    loopSeen (step (answered 1000 1 false (some 0xF7#8))) =
      some ([.wdt, .startApp 0x00000200#32], .running, .waitForStart, 0) := by
  decide +kernel

/-- B5: abort holds the window open. -/
theorem test_loop_abort :
    loopSeen (step (answered 0 1000000000 true none)) =
      some ([.wdt], .listening, .waitForStart, 0) := by
  decide +kernel

/-- What the decoder leaves in its registers. -/
def decoderSeen (o : Host.Outcome State Fault Refusal) : Option (RxState × Nat × List Host.Cell) :=
  (nextOf o).map (fun t => (t.rxState, t.rxLen, t.buf))

/-- Section 3.3: `END` after `ESC` is the data byte `5F`. -/
theorem test_decoder_escaped_end :
    decoderSeen (decodeStep 0x7F#8 (received .escaped [])) =
      some (.verbatim, 1, [(0, 0x5F#8)]) := by
  decide +kernel

/-- Section 3.5: `START` inside a frame is data. -/
theorem test_decoder_start_is_data :
    decoderSeen (decodeStep 0xF7#8 (received .verbatim [0x01#8])) =
      some (.verbatim, 2, [(0, 0x01#8), (1, 0xF7#8)]) := by
  decide +kernel

/-- Section 3.4: the 49th data byte resets the decoder. -/
theorem test_decoder_overflow :
    (decoderSeen (decodeStep 0x11#8 (received .verbatim (List.replicate 48 0x11#8)))).map
      (fun d => (d.1, d.2.1)) = some (.waitForStart, 0) := by
  decide +kernel

/-- Section 3.1: a corrupted trailer byte (S5): no event. -/
theorem test_decoder_bad_checksum :
    seen (decodeStep 0x7F#8 (received .verbatim [0x01#8, 0x00#8, 0x01#8, 0x02#8, 0x05#8])) =
      some ([], 0x00#8, 0x00#8) := by
  decide +kernel

/-! ### WellFormed: each check with a term it refuses -/

theorem test_wellFormed_T : Config.vectorT.WellFormed ∧ configT0.WellFormed := by decide +kernel

theorem test_refuses_guard_order :
    ¬ Config.WellFormed
      { Config.vectorT with bootloaderStart := 0x00000201#32 } := by
  decide +kernel

theorem test_refuses_word_step :
    ¬ Config.WellFormed
      { Config.vectorT with wordStep := 0 } := by
  decide +kernel

theorem test_refuses_row_words :
    ¬ Config.WellFormed
      { Config.vectorT with rowWords := 1 } := by
  decide +kernel

theorem test_refuses_page_multiple :
    ¬ Config.WellFormed
      { Config.vectorT with pageWords := 10 } := by
  decide +kernel

theorem test_refuses_page_min :
    ¬ Config.WellFormed
      { Config.vectorT with pageWords := 0 } := by
  decide +kernel

theorem test_refuses_max_multiple :
    ¬ Config.WellFormed
      { Config.vectorT with maxWords := 6 } := by
  decide +kernel

theorem test_refuses_max_min :
    ¬ Config.WellFormed
      { Config.vectorT with maxWords := 0 } := by
  decide +kernel

theorem test_refuses_row_16_bits :
    ¬ Config.WellFormed
      { Config.vectorT with rowWords := 0x10000, pageWords := 0x10000, maxWords := 0x10000, rxCap := 0x40009 } := by
  decide +kernel

theorem test_refuses_page_16_bits :
    ¬ Config.WellFormed
      { Config.vectorT with pageWords := 0x10000 } := by
  decide +kernel

theorem test_refuses_max_16_bits :
    ¬ Config.WellFormed
      { Config.vectorT with maxWords := 0x10000, rxCap := 0x40009 } := by
  decide +kernel

theorem test_refuses_max_request :
    ¬ Config.WellFormed
      { Config.vectorT with maxWords := 16384, rxCap := 65545 } := by
  decide +kernel

theorem test_refuses_platform_length :
    ¬ Config.WellFormed { Config.vectorT with platformString := List.replicate 65534 0x41#8 } := by
  intro h
  have := h.2.2.2.2.2.2.2.2.2.2.2.1
  simp only [List.length_replicate] at this
  omega

theorem test_refuses_version_length :
    ¬ Config.WellFormed { Config.vectorT with versionString := List.replicate 65534 0x41#8 } := by
  intro h
  have := h.2.2.2.2.2.2.2.2.2.2.2.2.1
  simp only [List.length_replicate] at this
  omega

theorem test_refuses_buffer :
    ¬ Config.WellFormed
      { Config.vectorT with rxCap := 40 } := by
  decide +kernel

theorem test_refuses_page_span :
    ¬ Config.WellFormed
      { Config.vectorT with wordStep := 0x20000000, maxWords := 4 } := by
  decide +kernel

theorem test_refuses_block_span :
    ¬ Config.WellFormed
      { Config.vectorT with wordStep := 0x20000000, pageWords := 4 } := by
  decide +kernel

theorem test_refuses_platform_nul :
    ¬ Config.WellFormed
      { Config.vectorT with platformString := [0x74#8, 0x00#8] } := by
  decide +kernel

theorem test_refuses_version_nul :
    ¬ Config.WellFormed
      { Config.vectorT with versionString := [0x00#8] } := by
  decide +kernel

theorem test_refuses_short_row :
    Instr.wellFormed Config.vectorT (.writeRow 0#32 [0#32, 0#32, 0#32]) = false := by decide

theorem test_refuses_long_row :
    Instr.wellFormed Config.vectorT (.writeRow 0#32 (List.replicate 5 0#32)) = false := by decide

theorem test_refuses_short_block :
    Instr.wellFormed Config.vectorT (.writeMax 0#32 (List.replicate 7 0#32)) = false := by decide

theorem test_refuses_long_block :
    Instr.wellFormed Config.vectorT (.writeMax 0#32 (List.replicate 9 0#32)) = false := by decide

/-! ### The hypotheses of the statements can be met

One theorem a statement, at boundary values where it has clauses. -/

theorem big_args (words row : Nat) (ws : List Word) :
    ((Instr.writeMax 0#32 ws).args.length = 4 + 4 * ws.length) ∧
    ((Instr.writeMax 0#32 ws).wellFormed (bigConfig words row) = true ↔ ws.length = words) := by
  simp [Instr.args, Instr.wellFormed, bigConfig]

/-- Both clauses: 16382 words (length field 65533) and 16383 words (65537). -/
theorem witness_DecodeFrameInvertsEncode :
    (∃ (c : Config) (i : Instr), c.WellFormed ∧ i.wellFormed c = true ∧
      1 + i.args.length = 65533) ∧
    (∃ (c : Config) (i : Instr), c.WellFormed ∧ i.wellFormed c = true ∧
      1 + i.args.length = 65537) := by
  refine ⟨⟨bigConfig 16382 2, .writeMax 0#32 (List.replicate 16382 0#32), by decide +kernel, ?_, ?_⟩,
    ⟨bigConfig 16383 3, .writeMax 0#32 (List.replicate 16383 0#32), by decide +kernel, ?_, ?_⟩⟩
  · rw [(big_args _ _ _).2, List.length_replicate]
  · rw [(big_args 16382 2 _).1, List.length_replicate]
  · rw [(big_args _ _ _).2, List.length_replicate]
  · rw [(big_args 16383 3 _).1, List.length_replicate]

theorem witness_DecodeAcceptsOnlyOwnMessage :
    decode Config.vectorT [0x01#8, 0x00#8, 0x07#8] = .ok .readBootStartAddr := by decide +kernel

theorem witness_UnknownCommandsIgnored :
    ([0x01#8, 0x00#8, 0x08#8] : List Byte)[2]? = some 0x08#8 ∧ (0x08#8 : Byte) ∉ knownCommands ∧
    (0xFF#8 : Byte) ∉ knownCommands := by decide

/-- Every clause; the last with 16383 words, a length field of 65537. -/
theorem witness_MalformedMessagesIgnored :
    (([] : List Byte).length < 3 ∧ ([0x00#8, 0x00#8] : List Byte).length < 3 ∧
      u16 0x02#8 0x00#8 ≠ ([0x01#8] : List Byte).length ∧
      u16 0x00#8 0x00#8 ≠ ([0x01#8] : List Byte).length ∧
      need State.reset.cfg 0x40#8 ≠ some ([0x00#8] : List Byte).length ∧
      need State.reset.cfg 0x30#8 ≠ some (List.replicate 19 0x00#8).length ∧
      need State.reset.cfg 0x08#8 ≠ some ([] : List Byte).length) ∧
    (∃ (s : State) (i : Instr), i.wellFormed s.cfg = true ∧ 1 + i.args.length = 65537) := by
  obtain ⟨-, ⟨d, j, -, k, kl⟩⟩ := witness_DecodeFrameInvertsEncode
  exact ⟨by decide +kernel, State.resetWith d, j, k, kl⟩

theorem witness_DispatchRunsTheCommand :
    ∃ (s : State) (i : Instr), i.wellFormed s.cfg = true ∧ 1 + i.args.length = 65533 := by
  obtain ⟨⟨c, i, -, h, hl⟩, -⟩ := witness_DecodeFrameInvertsEncode
  exact ⟨State.resetWith c, i, h, hl⟩

theorem witness_VerifyComparesTheTrailer :
    2 ≤ ([0x00#8, 0x00#8] : List Byte).length ∧ verify [0x00#8, 0x00#8] = true ∧
    verify [0x00#8, 0x01#8] = false := by decide +kernel

theorem witness_OneByteChangeChangesChecksum : (0x00#8 : Byte) ≠ 0xFF#8 := by decide

theorem witness_DecoderOpensIgnoresAndEscapes :
    State.reset.rxState = .waitForStart ∧ (0x7F#8 : Byte) ≠ 0xF7#8 ∧
    (received .verbatim []).rxState = .verbatim := by decide

/-- A raw `START` and an escaped `END`, with room for one byte and with none. -/
theorem witness_DataByteStoredOrOverflows :
    ((received .verbatim []).rxState = .verbatim ∧ (0xF7#8 : Byte) ≠ 0xF6#8 ∧
      (0xF7#8 : Byte) ≠ 0x7F#8) ∧
    ((received .escaped []).rxState = .escaped ∧ (0x5F#8 : Byte) = 0x7F#8 ^^^ 0x20#8) ∧
    (received .verbatim (List.replicate 48 0x11#8)).rxLen = Config.vectorT.rxCap ∧
    (received .verbatim (List.replicate 47 0x11#8)).rxLen ≠ Config.vectorT.rxCap := by
  decide +kernel

/-- A body of one byte, one of two that does not match and one of two that does. -/
theorem witness_EndMarkerCompletesTheFrame :
    (received .verbatim [0x33#8]).rxLen < 2 ∧
    (let s := received .verbatim [0x00#8, 0x01#8]
     2 ≤ s.rxLen ∧ (f16 ((bufBody s).take (s.rxLen - 2))).toNat ≠
      u16 (bufByte s (s.rxLen - 2)) (bufByte s (s.rxLen - 1))) ∧
    (let s := received .verbatim [0x00#8, 0x00#8]
     2 ≤ s.rxLen ∧ (f16 ((bufBody s).take (s.rxLen - 2))).toNat =
      u16 (bufByte s (s.rxLen - 2)) (bufByte s (s.rxLen - 1))) := by
  decide +kernel

/-- The body that exactly fills the buffer (95_test_vectors.md section 2.3). -/
theorem witness_FrameReachesTheDispatcher :
    State.reset.bootState = .listening ∧ State.reset.rxState = .waitForStart ∧
    5 + (List.replicate 43 0xA5#8).length = State.reset.cfg.rxCap := by
  decide +kernel

/-- One byte too many and a whole second buffer, each byte a marker; and the raw bytes, `START` among
them. -/
theorem witness_OversizeBodyResetsTheDecoder :
    State.reset.bootState = .listening ∧ State.reset.rxState = .waitForStart ∧
    (State.reset.cfg.rxCap < (List.replicate 49 0x7F#8).length ∧
      State.reset.cfg.rxCap < (List.replicate 96 0xF6#8).length) ∧
    ((List.replicate 49 0xF7#8).length = State.reset.cfg.rxCap + 1 ∧
      ∀ d ∈ List.replicate 49 0xF7#8, d ≠ 0xF6#8 ∧ d ≠ 0x7F#8) := by
  decide +kernel

theorem witness_NoEffectBeforeVerifiedEnd :
    ∃ s t : State, decodeStep 0x7F#8 s = .next t ∧ t.bootState ≠ s.bootState ∧
      t.trace ≠ s.trace :=
  ⟨received .verbatim [0x01#8, 0x00#8, 0x40#8, 0x41#8, 0x43#8],
    { received .verbatim [0x01#8, 0x00#8, 0x40#8, 0x41#8, 0x43#8] with
      rxState := .waitForStart, rxLen := 0, bootState := .running
      trace := [.startApp 0x00000200#32] },
    next_of_nextOf (by decide +kernel), by decide, by decide⟩

/-- Two states with different parameters, sums, tick counts and flash, and one byte. -/
theorem witness_DecoderDependsOnItsRegistersOnly :
    ∃ s s' t t' : State, SameDecoder s s' ∧ s.cfg ≠ s'.cfg ∧ s.sum1 ≠ s'.sum1 ∧
      s.flash ≠ s'.flash ∧ decodeStep 0xF7#8 s = .next t ∧ decodeStep 0xF7#8 s' = .next t' :=
  ⟨State.reset, { State.resetWith configT0 with sum1 := 0x01#8, elapsed := 7, flash := [(0, 0#32)] },
    { State.reset with rxState := .verbatim },
    { State.resetWith configT0 with
      rxState := .verbatim, sum1 := 0x01#8, elapsed := 7, flash := [(0, 0#32)] },
    by decide, by decide, by decide, by decide, next_of_nextOf (by decide +kernel),
    next_of_nextOf (by decide +kernel)⟩

/-- The geometry at the 16-bit limits. -/
theorem witness_GeometryCommandsReply16Bits :
    State.reset.cfg.WellFormed ∧ (State.resetWith (bigConfig 16383 3)).cfg.WellFormed ∧
    (State.resetWith longPages).cfg.WellFormed :=
  ⟨by decide +kernel, by decide +kernel, by decide +kernel⟩

theorem witness_InfoRepliesAreIdempotent :
    isInfo .readPlatform = true ∧ State.reset.cfg = Config.vectorT := by decide

/-- Both ends of the guard range, both sides of it, and both sides of the end of the zero page. -/
theorem witness_ErasePageEffect :
    ([0x100#32, 0x1FF#32].all fun A =>
      decide (State.reset.cfg.bootloaderStart ≤ A ∧ A < State.reset.cfg.applicationStart)) = true ∧
    ([0x10#32, 0xFF#32, 0x200#32, 0xFFFFFFFF#32].all fun A =>
      decide (¬ (State.reset.cfg.bootloaderStart ≤ A ∧ A < State.reset.cfg.applicationStart) ∧
        State.reset.cfg.pageSpan ≤ A.toNat)) = true ∧
    ([0x0#32, 0x0F#32].all fun A =>
      decide (¬ (State.reset.cfg.bootloaderStart ≤ A ∧ A < State.reset.cfg.applicationStart) ∧
        A.toNat < State.reset.cfg.pageSpan)) = true := by
  decide +kernel

theorem witness_ReadAddrEffect :
    flashKnown { State.reset with flash := [(0x300, 0x00ABCDEF#32)] } 0x300#32 =
      some 0x00ABCDEF#32 := by
  decide +kernel

/-- The first and the last word of a block that wraps. -/
theorem witness_ReadMaxEffect :
    let s := { State.reset with flash := wrapFlash }
    0 < s.cfg.maxWords ∧ 7 < s.cfg.maxWords ∧
    flashKnown s (BitVec.ofNat 32 ((0xFFFFFFFC#32).toNat + 0 * s.cfg.wordStep)) =
      some 0x00C0FFFC#32 ∧
    flashKnown s (BitVec.ofNat 32 ((0xFFFFFFFC#32).toNat + 7 * s.cfg.wordStep)) =
      some 0x00C0000A#32 := by
  decide +kernel

theorem witness_WriteRowEffect :
    ([0x100#32, 0x1FF#32, 0x3#32].all fun A =>
      decide ((State.reset.cfg.bootloaderStart ≤ A ∧ A < State.reset.cfg.applicationStart) ∨
        A < State.reset.cfg.ivtBase)) = true ∧
    ([0x4#32, 0xFF#32, 0x200#32].all fun A =>
      decide (¬ ((State.reset.cfg.bootloaderStart ≤ A ∧ A < State.reset.cfg.applicationStart) ∨
        A < State.reset.cfg.ivtBase))) = true := by
  decide +kernel

/-- Refused by its second row only, by its first only, and not refused. -/
theorem witness_WriteMaxEffect :
    (∃ k < State.reset.cfg.maxRows,
      writeRefused State.reset.cfg (rowAddr State.reset.cfg 0xF8#32 k) = true) ∧
    (∃ k < State.reset.cfg.maxRows,
      writeRefused State.reset.cfg (rowAddr State.reset.cfg 0x1F8#32 k) = true) ∧
    (∀ k < State.reset.cfg.maxRows,
      writeRefused State.reset.cfg (rowAddr State.reset.cfg 0x200#32 k) = false) := by
  decide +kernel

theorem witness_ForceStubReplacesTwoWords :
    2 ≤ ([0#32, 1#32] : List Word).length ∧ (0x8#32 : Word) ≠ 0#32 ∧
    2 ≤ ([0#32, 1#32, 2#32] : List Word).length := by decide

theorem witness_RefusedCommandsHaveNoEffect :
    eraseRefused State.reset.cfg 0x1FF#32 = true ∧
    writeRefused State.reset.cfg 0x3#32 = true ∧
    (1 < State.reset.cfg.maxRows ∧
      writeRefused State.reset.cfg (rowAddr State.reset.cfg 0xFFFFFFF8#32 1) = true) := by
  decide +kernel

/-- The last row of the address space, and one that runs past its end; a word beside it, one that shares
an address with it and one that does not. -/
theorem witness_WriteRowReadsBack :
    (State.reset.cfg.WellFormed ∧ (List.replicate 4 0#32).length = State.reset.cfg.rowWords ∧
      writeRefused State.reset.cfg 0xFFFFFFF8#32 = false ∧
      (0xFFFFFFF8#32).toNat % State.reset.cfg.rowSpan = 0 ∧ 3 < State.reset.cfg.rowWords) ∧
    (wrapConfig.WellFormed ∧ (List.replicate 3 0#32).length = wrapConfig.rowWords ∧
      writeRefused wrapConfig 0xFFFFFFFC#32 = false ∧
      (0xFFFFFFFC#32).toNat % wrapConfig.rowSpan = 0 ∧ 2 < wrapConfig.rowWords ∧
      (∀ a ∈ [1, 2], ∀ i < 3, a ≠ ((0xFFFFFFFC#32).toNat + i * wrapConfig.wordStep) % 2 ^ 32) ∧
      SharesAddress 1 2 (0xFFFFFFFC#32).toNat 6 ∧ ¬ SharesAddress 2 2 (0xFFFFFFFC#32).toNat 6) := by
  decide +kernel

/-- The last and the first word that share an address with the two rows, and the words beside them. -/
theorem witness_UnalignedWriteRowLeavesWordsOpen :
    State.reset.cfg.WellFormed ∧ writeRefused State.reset.cfg 0x301#32 = false ∧
    (0x301#32).toNat % State.reset.cfg.rowSpan ≠ 0 ∧
    (0x301#32).toNat / State.reset.cfg.rowSpan * State.reset.cfg.rowSpan = 0x300 ∧
    SharesAddress 0x30F 2 0x300 16 ∧ ¬ SharesAddress 0x310 2 0x300 16 ∧
    SharesAddress 0x2FF 2 0x300 16 ∧ ¬ SharesAddress 0x2FE 2 0x300 16 := by
  decide +kernel

/-- The last block of the address space, and one whose second row lands on address 0 (T0,
95_test_vectors.md section 7.4). -/
theorem witness_WriteMaxReadsBack :
    [(Config.vectorT, 0xFFFFFFF0#32), (configT0, 0xFFFFFFF8#32)].all (fun p =>
      decide (p.1.WellFormed ∧ (List.replicate 8 0#32).length = p.1.maxWords ∧
        (∀ k < p.1.maxRows, writeRefused p.1 (rowAddr p.1 p.2 k) = false) ∧
        (∀ k < p.1.maxRows, (rowAddr p.1 p.2 k).toNat % p.1.rowSpan = 0) ∧
        (1 < p.1.maxRows ∧ 3 < p.1.rowWords))) = true ∧
    rowAddr configT0 0xFFFFFFF8#32 1 = 0#32 ∧
    SharesAddress 0xFFFFFFF7 2 (0xFFFFFFF8#32).toNat 16 ∧
    ¬ SharesAddress 8 2 (0xFFFFFFF8#32).toNat 16 := by
  decide +kernel

theorem witness_WriteMaxLeavesOtherRowsAlone :
    State.reset.cfg.WellFormed ∧ (List.replicate 8 0#32).length = State.reset.cfg.maxWords ∧
    (∀ k < State.reset.cfg.maxRows, ¬ SharesAddress (0x318#32).toNat State.reset.cfg.wordStep
      ((rowAddr State.reset.cfg 0x301#32 k).toNat / State.reset.cfg.rowSpan * State.reset.cfg.rowSpan)
      (2 * State.reset.cfg.rowSpan)) := by
  decide +kernel

/-- The last page, the zero page with its first, second and last word, and a page that runs past the end of
the address space, with a word that shares an address with it and one that does not. -/
theorem witness_ErasePageReadsBack :
    (State.reset.cfg.WellFormed ∧ eraseRefused State.reset.cfg 0xFFFFFFFF#32 = false ∧
      pageBase State.reset.cfg 0xFFFFFFFF#32 = 0xFFFFFFF0) ∧
    (eraseRefused State.reset.cfg 0x0F#32 = false ∧
      (0x0F#32).toNat < State.reset.cfg.pageSpan ∧ 7 < State.reset.cfg.pageWords) ∧
    (oddConfig.WellFormed ∧ eraseRefused oddConfig 0xFFFFFFFF#32 = false ∧
      pageBase oddConfig 0xFFFFFFFF#32 = 0xFFFFFFF0 ∧
      (∀ a ∈ [6, 8], ∀ i < oddConfig.pageWords, a ≠ (0xFFFFFFF0 + i * oddConfig.wordStep) % 2 ^ 32) ∧
      SharesAddress 6 3 0xFFFFFFF0 24 ∧ ¬ SharesAddress 8 3 0xFFFFFFF0 24) := by
  decide +kernel

theorem witness_MutatingCommandsNeverReply :
    isRead (.erasePage 0#32) = false ∧ isRead (.writeRow 0#32 []) = false ∧
    isRead (.writeMax 0#32 []) = false ∧ isRead .startApp = false := by decide

theorem witness_ReadCommandsReplyOnceAndMutateNothing :
    isRead .readPlatform = true ∧ isRead (.readAddr 0x100#32) = true ∧
    isRead (.readMax 0x100#32) = true := by decide

/-- B3: the first tick count past the threshold. -/
theorem witness_WindowExpiryAndStartCommandHandOver :
    let s := answered 1000 1 false (some 0xF7#8)
    s.cfg.WellFormed ∧ s.bootState = .listening ∧
    s.cfg.bootThreshold < s.elapsed + (nextInput s).tickAdvance ∧ (nextInput s).abort = false := by
  decide +kernel

/-- B4 with the signal held, and B3 with it released. -/
theorem witness_AbortHoldsTheWindowOpen :
    (let s := answered 1000 1 true none
     s.cfg.WellFormed ∧ s.bootState = .listening ∧ (nextInput s).abort = true) ∧
    (let s := answered 1000 1 false none
     s.cfg.WellFormed ∧ s.bootState = .listening ∧ (nextInput s).abort = false ∧
      s.cfg.bootThreshold < s.elapsed + (nextInput s).tickAdvance) := by
  decide +kernel

/-- B2: the last tick count inside the window, without a byte and with one. -/
theorem witness_OpenWindowTakesAtMostOneByte :
    (let s := answered 0 1000 false none
     s.cfg.WellFormed ∧ s.bootState = .listening ∧
      s.elapsed + (nextInput s).tickAdvance ≤ s.cfg.bootThreshold ∧ (nextInput s).rx = none) ∧
    (let s := answered 0 1000 false (some 0xF7#8)
     s.cfg.WellFormed ∧ s.bootState = .listening ∧
      s.elapsed + (nextInput s).tickAdvance ≤ s.cfg.bootThreshold ∧
      (nextInput s).rx = some 0xF7#8) := by
  decide +kernel

theorem witness_RunningHasNoStep :
    let s := { State.reset with bootState := .running }
    s.cfg.WellFormed ∧ s.bootState = .running := by
  decide +kernel

theorem witness_ListeningStepCompletes :
    State.reset.cfg.WellFormed ∧ State.reset.bootState = .listening := by decide +kernel

/-- A hand-over by expiry, and one by the start command. -/
theorem witness_OnlyExpiryOrStartCommandLeavesListening :
    (∃ t, step (answered 1000 1 false none) = .next t ∧ t.bootState = .running) ∧
    (∃ t, step (staged Config.vectorT [] [0x01#8, 0x00#8, 0x40#8, 0x41#8, 0x43#8]) = .next t ∧
      t.bootState = .running) := by
  constructor
  · exact ⟨_, step_expired (by decide +kernel) (by decide) (by decide +kernel), rfl⟩
  · exact ⟨{ staged Config.vectorT [] [0x01#8, 0x00#8, 0x40#8, 0x41#8, 0x43#8] with
      bootState := .running, rxState := .waitForStart, rxLen := 0, inputs := []
      trace := [.wdt, .startApp 0x00000200#32] }, next_of_nextOf (by decide +kernel), rfl⟩

theorem witness_OneWatchdogServicePerStep : ∃ t, step (answered 0 0 false none) = .next t :=
  exists_next (by decide +kernel)

theorem witness_IllFormedConfigurationRefused :
    ¬ (State.resetWith { Config.vectorT with rowWords := 1 }).cfg.WellFormed := by decide +kernel

theorem witness_ParametersNeverChange : ∃ t, step (answered 0 0 true (some 0x00#8)) = .next t :=
  exists_next (by decide +kernel)

theorem witness_StepRunsDecodedInstruction :
    let s := staged Config.vectorT [] [0x01#8, 0x00#8, 0x40#8, 0x41#8, 0x43#8]
    s.cfg.WellFormed ∧ s.bootState = .listening ∧
    windowExpired s.cfg (s.elapsed + (nextInput s).tickAdvance) (nextInput s).abort = false ∧
    (nextInput s).rx = some endMarker ∧ s.rxState = .verbatim ∧
    completedMessage s = some [0x01#8, 0x00#8, 0x40#8] ∧
    decode s.cfg [0x01#8, 0x00#8, 0x40#8] = .ok .startApp := by
  decide +kernel

theorem witness_DeliveredFrameRunsItsInstruction :
    let s := { State.reset with inputs := delivery 300 (encode .readVersion) ++ [] }
    s.cfg.WellFormed ∧ Instr.readVersion.wellFormed s.cfg = true ∧
    1 + Instr.readVersion.args.length ≤ 0xFFFF ∧ s.bootState = .listening ∧
    s.rxState = .waitForStart ∧ s.inputs = delivery 300 (encode .readVersion) ++ [] := by
  decide +kernel

theorem witness_CommandsTouchOnlyTheirOwnState : Instr.readVersion ≠ .startApp := by decide

/-- A reset in the middle of a frame, of a block that meets the invariant. -/
theorem witness_RebootKeepsFlashAndParameters : Inv (received .escaped [0x01#8, 0x00#8]) := by
  decide +kernel

/-- A step that erases the zero page, and so has three events. -/
theorem witness_ResetInsideStepKeepsFlash :
    ∃ t, step (staged Config.vectorT [] (frameBody 0x10#8 (le32 0#32))) = .next t :=
  exists_next (by decide +kernel)

/-- The last address of the zero page; and the block of 95_test_vectors.md section 7.4 whose second row
lands on address 0 (T0), before its first row, between its rows and after both. -/
theorem witness_ResetBetweenTwoFlashOperations :
    (Config.vectorT.WellFormed ∧ eraseRefused State.reset.cfg 0x0F#32 = false ∧
      (0x0F#32).toNat < State.reset.cfg.pageSpan ∧ 7 < State.reset.cfg.pageWords) ∧
    (configT0.WellFormed ∧ (List.replicate 8 0#32).length = configT0.maxWords ∧
      (∀ k < configT0.maxRows, writeRefused configT0 (rowAddr configT0 0xFFFFFFF8#32 k) = false) ∧
      (∀ k < configT0.maxRows,
        (rowAddr configT0 0xFFFFFFF8#32 k).toNat % configT0.rowSpan = 0) ∧
      1 < configT0.maxRows ∧ 3 < configT0.rowWords) := by
  decide +kernel

theorem witness_InvAtReset : configT0.WellFormed := by decide +kernel

/-- A byte is stored; the invariant holds before it. -/
theorem witness_StepKeepsInv :
    Inv { answered 0 0 true (some 0x11#8) with rxState := .verbatim } ∧
    ∃ t, step { answered 0 0 true (some 0x11#8) with rxState := .verbatim } = .next t :=
  ⟨by decide +kernel, exists_next (by decide +kernel)⟩

/-- A row is written; the trace is safe before it. -/
theorem witness_StepKeepsTraceSafe :
    let s := staged configT0 [] (frameBody 0x30#8 (List.replicate 20 0x00#8))
    SafeTrace s ∧ ∃ t, step s = .next t ∧
      t.trace = [.wdt, .flashWriteRow 0#32 [0x00040100#32, 0#32, 0#32, 0#32]] := by
  refine ⟨fun e he => (by cases he), ?_⟩
  obtain ⟨t, ht⟩ : ∃ t, step (staged configT0 [] (frameBody 0x30#8 (List.replicate 20 0x00#8))) =
      .next t := exists_next (by decide +kernel)
  refine ⟨t, ht, ?_⟩
  have h : seen (step (staged configT0 [] (frameBody 0x30#8 (List.replicate 20 0x00#8)))) =
      some ([.wdt, .flashWriteRow 0#32 [0x00040100#32, 0#32, 0#32, 0#32]], 0#8, 0#8) := by
    decide +kernel
  rw [ht] at h
  simp only [seen, nextOf, Option.map_some, Option.some.injEq, Prod.mk.injEq] at h
  exact h.1

theorem witness_StepKeepsHandOverOnce :
    HandOverOnce (answered 1000 1 false none) ∧
    ∃ t, step (answered 1000 1 false none) = .next t ∧ t.bootState = .running :=
  ⟨by decide, _, step_expired (by decide +kernel) (by decide) (by decide +kernel), rfl⟩

end Sys2Proof.Tests
end

section
/-! The little-endian helpers of R12 as numbers. That each reader is undone by its writer is
`le16_u16` and `le32_u32` of the codec's laws. -/

namespace Sys2Proof

/-- The high byte of a 16-bit value needs no reduction: the quotient is below 256. -/
theorem le16_toNat (v : BitVec 16) :
    (le16 v).map BitVec.toNat = [v.toNat % 256, v.toNat / 256] := by
  have high : v.toNat / 256 % 256 = v.toNat / 256 := by
    have := v.isLt
    omega
  simp [le16, Nat.shiftRight_eq_div_pow, high]

/-- The top byte of a word needs no reduction: the quotient is below 256. -/
theorem le32_toNat (v : Word) :
    (le32 v).map BitVec.toNat =
      [v.toNat % 256, v.toNat / 256 % 256, v.toNat / 65536 % 256, v.toNat / 16777216] := by
  have top : v.toNat / 16777216 % 256 = v.toNat / 16777216 := by
    have := v.isLt
    omega
  simp [le32, Nat.shiftRight_eq_div_pow, top]

/-- The sum that `u32` makes of four bytes fits 32 bits, so nothing is cut off. -/
theorem u32_toNat (b0 b1 b2 b3 : Byte) :
    (u32 b0 b1 b2 b3).toNat =
      b0.toNat + 256 * b1.toNat + 65536 * b2.toNat + 16777216 * b3.toNat := by
  have h0 := b0.isLt
  have h1 := b1.isLt
  have h2 := b2.isLt
  have h3 := b3.isLt
  rw [u32, BitVec.toNat_ofNat]
  omega

/-- Settles O2: the numbers by `le16_toNat`, `le32_toNat` and `u32_toNat`, the inverses by the codec's
laws `le16_u16` and `le32_u32`. -/
theorem littleEndianHelpersInverse : Obligations.LittleEndianHelpersInverse :=
  ⟨le16_toNat, le32_toNat,
    fun b0 b1 => ⟨rfl, le16_u16 b0 b1⟩,
    fun b0 b1 b2 b3 => ⟨u32_toNat b0 b1 b2 b3, le32_u32 b0 b1 b2 b3⟩⟩

end Sys2Proof
end

section
/-! No rule writes the parameters (R29): first the operations built from several state updates, then
commands, the dispatcher, the decoder and the loop, each by its inversion lemma. Commands, the dispatcher
and the decoder always complete, so their lemmas name the next state rather than assume one. -/

namespace Sys2Proof.Machine

@[simp] theorem encodeReply_cfg (cmd : Byte) (args : List Byte) (s : State) :
    (encodeReply cmd args s).cfg = s.cfg := by
  obtain ⟨es, h⟩ := encodeReply_frame cmd args s
  rw [h]

@[simp] theorem flashReadAll_cfg (as : List Word) (s : State) :
    (flashReadAll as s).2.cfg = s.cfg := by
  obtain ⟨-, ⟨n, h⟩, -⟩ := flashReadAll_spec as s
  rw [h]

@[simp] theorem flashWriteRows_cfg (rows : List (Word × List Word)) (s : State) :
    (flashWriteRows rows s).cfg = s.cfg := by
  rw [flashWriteRows_spec]

theorem exec_completes_cfg (i : Instr) (s : State) : ∃ t, exec i s = .next t ∧ t.cfg = s.cfg := by
  obtain h | ⟨cmd, args, h⟩ | ⟨cmd, args, as, h⟩ | ⟨A, -, -, h⟩ | ⟨A, -, -, -, h⟩ | ⟨A, ws, -, -, h⟩ |
    ⟨A, ws, -, -, h⟩ | ⟨-, h⟩ := exec_cases i s
  · exact ⟨s, h, rfl⟩
  · exact ⟨_, h, encodeReply_cfg cmd args s⟩
  · exact ⟨_, h, (encodeReply_cfg cmd args _).trans (flashReadAll_cfg as s)⟩
  · exact ⟨_, h, flashErase_cfg A s⟩
  · exact ⟨_, h, (flashWriteRow_cfg _ _ _).trans (flashErase_cfg A s)⟩
  · exact ⟨_, h, flashWriteRow_cfg A _ s⟩
  · exact ⟨_, h, flashWriteRows_cfg _ s⟩
  · exact ⟨_, h, handOver_cfg s⟩

theorem dispatch_completes_cfg (m : List Byte) (s : State) :
    ∃ t, dispatch m s = .next t ∧ t.cfg = s.cfg := by
  obtain ⟨e, -, h⟩ | ⟨i, -, h⟩ := dispatch_cases m s
  · exact ⟨s, h, rfl⟩
  · rw [h]
    exact exec_completes_cfg i s

theorem decodeStep_completes_cfg (b : Byte) (s : State) :
    ∃ t, decodeStep b s = .next t ∧ t.cfg = s.cfg := by
  obtain ⟨-, -, h⟩ | ⟨-, -, h⟩ | ⟨-, -, h⟩ | ⟨-, -, -, h⟩ | ⟨m, -, -, -, h⟩ | ⟨d, -, h⟩ :=
    decodeStep_cases b s
  · exact ⟨_, h, rfl⟩
  · exact ⟨s, h, rfl⟩
  · exact ⟨_, h, rfl⟩
  · exact ⟨_, h, decoderIdle_cfg s⟩
  · obtain ⟨t, ht, hcfg⟩ := dispatch_completes_cfg m s
    exact ⟨decoderIdle t, by rw [h, ht, onNext_next], hcfg⟩
  · exact ⟨_, h, append_cfg d s⟩

theorem step_cfg {s t : State} (h : step s = .next t) : t.cfg = s.cfg := by
  obtain ⟨-, -, ⟨-, rfl⟩ | ⟨-, ⟨-, rfl⟩ | ⟨b, -, hbyte⟩⟩⟩ := step_cases h
  · exact handOver_cfg (sampled s)
  · exact sampled_cfg s
  · obtain ⟨u, hu, hcfg⟩ := decodeStep_completes_cfg b (sampled s)
    obtain rfl : u = t := Host.Outcome.next.inj (hu.symm.trans hbyte)
    exact hcfg

/-- Settles O49: a step by `step_cfg`, a reset by the law `reboot_cfg`. -/
theorem parametersNeverChange : Obligations.ParametersNeverChange :=
  ⟨fun _ _ => step_cfg, reboot_cfg⟩

end Sys2Proof.Machine
end

section
/-! A received byte with an effect is the end marker of a verified frame (R68): the trailer as the last two
bytes of the buffer, when `Complete` hands a message over, and what the decoder keeps otherwise. -/

namespace Sys2Proof.Machine

/-- The trailer is the last two bytes of the buffer. -/
theorem bufBody_drop_trailer {s : State} (h : 2 ≤ s.rxLen) :
    (bufBody s).drop (s.rxLen - 2) = [bufByte s (s.rxLen - 2), bufByte s (s.rxLen - 1)] := by
  obtain ⟨n, hn⟩ := Nat.exists_eq_add_of_le' h
  simp [bufBody, hn, List.range_succ]

/-- `Verify` on the buffer compares the checksum of the message with the trailer's number (R116). -/
theorem verify_bufBody_iff {s : State} (h : 2 ≤ s.rxLen) :
    verify (bufBody s) = true ↔
      (f16 ((bufBody s).take (s.rxLen - 2))).toNat =
        u16 (bufByte s (s.rxLen - 2)) (bufByte s (s.rxLen - 1)) := by
  simp [verify, bufBody_drop_trailer h]

/-- `Complete` hands a message over exactly when there is a trailer and it matches (R133, R137). -/
theorem completedMessage_eq_some_iff {s : State} {m : List Byte} :
    completedMessage s = some m ↔
      2 ≤ s.rxLen ∧ verify (bufBody s) = true ∧ (bufBody s).take (s.rxLen - 2) = m := by
  unfold completedMessage
  by_cases hlen : s.rxLen < 2
  · simp [hlen]
  · simp [hlen, Nat.not_lt.1 hlen]

/-- A byte that completes no frame changes neither trace nor mode nor flash record. -/
theorem decodeStep_keeps_or_completes {b : Byte} {s t : State} (h : decodeStep b s = .next t) :
    (t.trace = s.trace ∧ t.bootState = s.bootState ∧ t.flash = s.flash) ∨
    (s.rxState = .verbatim ∧ b = endMarker ∧ ∃ m, completedMessage s = some m) := by
  obtain ⟨-, -, hu⟩ | ⟨-, -, hu⟩ | ⟨-, -, hu⟩ | ⟨-, -, -, hu⟩ | ⟨m, hrx, hb, hm, -⟩ | ⟨d, -, hu⟩ :=
    decodeStep_cases b s
  case inr.inr.inr.inr.inl => exact .inr ⟨hrx, hb, m, hm⟩
  all_goals
    obtain rfl := Host.Outcome.next.inj (h.symm.trans hu)
    simp

/-- Settles O18: the byte that has an effect completes a frame (`decodeStep_keeps_or_completes`), and a
completed frame has a matching trailer. -/
theorem noEffectBeforeVerifiedEnd : Obligations.NoEffectBeforeVerifiedEnd := by
  intro b s t h heffect
  obtain ⟨htrace, hboot, hflash⟩ | ⟨hrx, hb, m, hm⟩ := decodeStep_keeps_or_completes h
  · simp [htrace, hboot, hflash] at heffect
  · obtain ⟨hlen, hverify, -⟩ := completedMessage_eq_some_iff.1 hm
    exact ⟨hrx, hb, hlen, (verify_bufBody_iff hlen).1 hverify⟩

end Sys2Proof.Machine
end

section
/-! Where a mutating command is turned away: one rule a command, each the no-op of R65. -/

namespace Sys2Proof.Machine

theorem exec_erasePage_of_refused {A : Word} {s : State} (h : eraseRefused s.cfg A = true) :
    exec (.erasePage A) s = .next s :=
  if_pos h

theorem exec_writeRow_of_refused {A : Word} {words : List Word} {s : State}
    (h : writeRefused s.cfg A = true) : exec (.writeRow A words) s = .next s :=
  if_pos h

/-- One refused row turns the whole block away: every row is checked before the first write (R189). -/
theorem exec_writeMax_of_refused_row {A : Word} {words : List Word} {s : State} {k : Nat}
    (hk : k < s.cfg.maxRows) (h : writeRefused s.cfg (rowAddr s.cfg A k) = true) :
    exec (.writeMax A words) s = .next s :=
  if_pos (List.any_eq_true.2 ⟨k, List.mem_range.2 hk, h⟩)

/-- Settles O32: one refusal rule for each of the three commands. -/
theorem refusedCommandsHaveNoEffect : Obligations.RefusedCommandsHaveNoEffect :=
  fun _ _ _ => ⟨exec_erasePage_of_refused, exec_writeRow_of_refused,
    fun _ => exec_writeMax_of_refused_row⟩

end Sys2Proof.Machine
end

section
/-! The checksum: the accumulator is the batch function's fold read off the two registers (R114), and
`Verify` is an equation on the trailer's two bytes (R116). -/

namespace Sys2Proof.Machine

/-- The pair of sum registers takes each byte as the algorithm of R110 does. -/
theorem sums_foldl_accumulate (l : List Byte) (s : State) :
    ((l.foldl (fun s b => accumulate b s) s).sum1, (l.foldl (fun s b => accumulate b s) s).sum2) =
      l.foldl f16Step (s.sum1, s.sum2) := by
  induction l generalizing s with
  | nil => rfl
  | cons b l ih => exact ih (accumulate b s)

theorem runningChecksum_foldl_accumulate (l : List Byte) (s : State) :
    runningChecksum (l.foldl (fun s b => accumulate b s) s) =
      f16Value (l.foldl f16Step (s.sum1, s.sum2)) :=
  congrArg f16Value (sums_foldl_accumulate l s)

/-- Settles O8: both sides fold R110's step from zero (`runningChecksum_foldl_accumulate`), so the
value of a freshly reset accumulator is the case of the empty list. -/
theorem accumulatorAgreesWithBatch : Obligations.AccumulatorAgreesWithBatch := by
  have hempty : f16 [] = 0x0000#16 := by decide
  have hagree (l : List Byte) (s : State) :
      runningChecksum (l.foldl (fun s b => accumulate b s) (accReset s)) = f16 l :=
    runningChecksum_foldl_accumulate l (accReset s)
  exact ⟨hagree, fun s => (hagree [] s).trans hempty, hempty⟩

end Sys2Proof.Machine

namespace Sys2Proof

theorem f16_toNat (m : List Byte) : (f16 m).toNat = u16 (f16Sums m).1 (f16Sums m).2 :=
  f16Value_toNat (f16Sums m)

/-- Two bytes are determined by the number they make. -/
theorem u16_inj {a b c d : Byte} : u16 a b = u16 c d ↔ a = c ∧ b = d := by
  refine ⟨fun h => ?_, fun ⟨ha, hb⟩ => by rw [ha, hb]⟩
  have hbytes : [a, b] = [c, d] := by rw [← le16_u16 a b, h, le16_u16]
  simpa using hbytes

/-- `Verify` on a message with its trailer appended. -/
theorem verify_append_iff (m : List Byte) (lo hi : Byte) :
    verify (m ++ [lo, hi]) = true ↔ (f16 m).toNat = u16 lo hi := by
  simp [verify]

/-- A body of at least 2 bytes is a message and a trailer of 2 bytes. -/
theorem exists_eq_append_trailer {body : List Byte} (h : 2 ≤ body.length) :
    ∃ m lo hi, body = m ++ [lo, hi] := by
  obtain ⟨lo, hi, htrailer⟩ : ∃ lo hi, body.drop (body.length - 2) = [lo, hi] :=
    List.length_eq_two.1 (by rw [List.length_drop]; omega)
  exact ⟨body.take (body.length - 2), lo, hi, by rw [← htrailer, List.take_append_drop]⟩

/-- Settles O9: a body splits into message and trailer, and the trailer's number fixes its two bytes. -/
theorem verifyComparesTheTrailer : Obligations.VerifyComparesTheTrailer := by
  constructor
  · intro body hlen
    obtain ⟨m, lo, hi, rfl⟩ := exists_eq_append_trailer hlen
    simpa using verify_append_iff m lo hi
  · intro m lo hi
    rw [verify_append_iff, f16_toNat, eq_comm, u16_inj]

end Sys2Proof
end

section
/-! The encoder sends one frame (R122): the procedure is `EmitData` over the bytes of the frame body between the
two raw markers, because the trailer it latches is the trailer of its own message (R123). -/

namespace Sys2Proof.Machine

/-- From `AccReset()` on, sending bytes leaves their checksum sums (R113). -/
theorem emitAll_accReset_eq (ds : List Byte) (s : State) :
    emitAll ds (accReset s) =
      { s with
        trace := s.trace ++ (ds.flatMap escape).map Event.tx
        sum1 := (f16Sums ds).1
        sum2 := (f16Sums ds).2 } :=
  emitAll_eq ds (accReset s)

/-- The latched trailer sent after the message completes the frame body. -/
theorem emitTrailer_emitAll_message (cmd : Byte) (args : List Byte) (s : State) :
    emitTrailer (emitAll (message cmd args) (accReset s)) =
      emitAll (frameBody cmd args) (accReset s) := by
  rw [frameBody_eq, emitAll_append, emitAll_accReset_eq (message cmd args)]
  rfl

theorem encodeReply_eq_emitAll_frameBody (cmd : Byte) (args : List Byte) (s : State) :
    encodeReply cmd args s =
      emit (.tx endMarker) (emitAll (frameBody cmd args) (accReset (emit (.tx startMarker) s))) := by
  rw [← emitTrailer_emitAll_message, message, emitAll_append, emitAll_append]
  rfl

/-- The trailer's two bytes go through the accumulator as well (R123). -/
theorem f16Sums_frameBody (cmd : Byte) (args : List Byte) :
    f16Sums (frameBody cmd args) =
      (2#8 * (f16Sums (message cmd args)).1 + (f16Sums (message cmd args)).2,
        2#8 * (2#8 * (f16Sums (message cmd args)).1 + (f16Sums (message cmd args)).2)) := by
  rw [frameBody_eq, f16Sums_append]
  obtain ⟨c1, c2⟩ := f16Sums (message cmd args)
  have hsum2 : c2 + (c1 + c1) = c1 + c1 + c2 := BitVec.add_comm _ _
  simp [f16Step, BitVec.two_mul, hsum2]

/-- Settles O11: `EmitData` over the whole frame body sends its escaped bytes and leaves its sums. -/
theorem encodeSendsOneFrame : Obligations.EncodeSendsOneFrame := by
  intro cmd args s
  rw [encodeReply_eq_emitAll_frameBody, emitAll_accReset_eq, f16Sums_frameBody]
  simp [emit, afterReply, frame]

end Sys2Proof.Machine
end

section
/-! The decoder by its state (R127 to R133), and the end marker as one of two rules: the frame is dropped, or its
message is dispatched; idle after both (R135). -/

namespace Sys2Proof.Machine

theorem decodeStep_waitForStart {s : State} (b : Byte) (h : s.rxState = .waitForStart) :
    decodeStep b s =
      if b = startMarker then .next { s with rxState := .verbatim, rxLen := 0 } else .next s := by
  simp only [decodeStep, h]

theorem decodeStep_verbatim {s : State} (b : Byte) (h : s.rxState = .verbatim) :
    decodeStep b s =
      if b = escMarker then .next { s with rxState := .escaped }
      else if b = endMarker then complete s
      else .next (append b s) := by
  simp only [decodeStep, h]

theorem decodeStep_endMarker {s : State} (h : s.rxState = .verbatim) :
    decodeStep endMarker s = complete s := by
  rw [decodeStep_verbatim _ h, if_neg (by decide), if_pos rfl]

/-- Settles O13: the decoder's rules in `WaitForStart` and in `Verbatim`. -/
theorem decoderOpensIgnoresAndEscapes : Obligations.DecoderOpensIgnoresAndEscapes := by
  refine ⟨fun s h => ?_, fun s b h hb => ?_, fun s h => ?_⟩
  · exact (decodeStep_waitForStart _ h).trans (if_pos rfl)
  · exact (decodeStep_waitForStart b h).trans (if_neg hb)
  · exact (decodeStep_verbatim _ h).trans (if_pos rfl)

theorem complete_of_dropped {s : State} (h : completedMessage s = none) :
    complete s = .next (decoderIdle s) := by
  simp only [complete, h, onNext_next]

theorem complete_of_message {s : State} {m : List Byte} (h : completedMessage s = some m) :
    complete s = onNext decoderIdle (dispatch m s) := by
  simp only [complete, h]

/-- A body without a trailer, or with one that does not match, is dropped (R133, R137). -/
theorem completedMessage_eq_none {s : State}
    (h : 2 ≤ s.rxLen → (f16 ((bufBody s).take (s.rxLen - 2))).toNat ≠
      u16 (bufByte s (s.rxLen - 2)) (bufByte s (s.rxLen - 1))) :
    completedMessage s = none := by
  refine Option.eq_none_iff_forall_ne_some.2 fun m hm => ?_
  obtain ⟨hlen, hverify, -⟩ := completedMessage_eq_some_iff.1 hm
  exact h hlen ((verify_bufBody_iff hlen).1 hverify)

/-- Settles O15: a short body and a mismatch leave `completedMessage` empty, a match gives the message,
and the dispatcher completes on every message. -/
theorem endMarkerCompletesTheFrame : Obligations.EndMarkerCompletesTheFrame := by
  refine ⟨fun s hrx hshort => ?_, fun s hrx _ hmismatch => ?_, fun s hrx hlen hmatch => ?_⟩
  · exact (decodeStep_endMarker hrx).trans
      (complete_of_dropped (completedMessage_eq_none fun hlen => absurd hlen (Nat.not_le.2 hshort)))
  · exact (decodeStep_endMarker hrx).trans
      (complete_of_dropped (completedMessage_eq_none fun _ => hmismatch))
  · have hmessage : completedMessage s = some ((bufBody s).take (s.rxLen - 2)) :=
      completedMessage_eq_some_iff.2 ⟨hlen, (verify_bufBody_iff hlen).2 hmatch, rfl⟩
    obtain ⟨t, ht, -⟩ := dispatch_completes_cfg ((bufBody s).take (s.rxLen - 2)) s
    refine ⟨t, ht, (decodeStep_endMarker hrx).trans ?_⟩
    rw [complete_of_message hmessage, ht, onNext_next]
    rfl

end Sys2Proof.Machine
end

section
/-! The commands that send one constant: each reply is a frame (R122), so its state is the closed form
`afterReply`. -/

namespace Sys2Proof.Machine

/-- The outcome of a command that does nothing but reply. -/
theorem next_encodeReply (cmd : Byte) (args : List Byte) (s : State) :
    (.next (encodeReply cmd args s) : Host.Outcome State Fault Refusal) =
      .next (afterReply cmd args s) :=
  congrArg _ (encodeSendsOneFrame cmd args s)

theorem exec_readProgLen (s : State) :
    exec .readProgLen s = .next (afterReply 0x04#8 (le32 s.cfg.progLength) s) :=
  next_encodeReply _ _ s

theorem exec_readAppStartAddr (s : State) :
    exec .readAppStartAddr s = .next (afterReply 0x06#8 (le32 s.cfg.applicationStart) s) :=
  next_encodeReply _ _ s

theorem exec_readBootStartAddr (s : State) :
    exec .readBootStartAddr s = .next (afterReply 0x07#8 (le32 s.cfg.bootloaderStart) s) :=
  next_encodeReply _ _ s

/-- Settles O22: each of the three commands is one reply, whose state O11 gives. -/
theorem constantCommandsReply32Bits : Obligations.ConstantCommandsReply32Bits :=
  fun s => ⟨exec_readProgLen s, exec_readAppStartAddr s, exec_readBootStartAddr s⟩

end Sys2Proof.Machine
end

section
/-! The dispatcher by the parser's answer (R150), and the command table (R95): which bytes have a row, and that
an instruction's own row makes the instruction again from its argument bytes. -/

namespace Sys2Proof.Machine

theorem dispatch_of_decode_error {m : List Byte} {s : State} {e : DecodeError}
    (h : decode s.cfg m = .error e) : dispatch m s = .next s := by
  simp only [dispatch, h]

theorem dispatch_of_decode_ok {m : List Byte} {s : State} {i : Instr}
    (h : decode s.cfg m = .ok i) : dispatch m s = exec i s := by
  simp only [dispatch, h]

/-- The 14 command bytes are the keys of the command table. -/
theorem knownCommands_eq_map_fst : knownCommands = commandTable.map Prod.fst := rfl

theorem commandRow_eq_none_iff (cmd : Byte) : commandRow cmd = none ↔ cmd ∉ knownCommands := by
  simp only [commandRow, knownCommands_eq_map_fst, List.find?_eq_none, beq_iff_eq, List.mem_map,
    not_exists, not_and]

theorem need_eq_none_iff (c : Config) (cmd : Byte) : need c cmd = none ↔ cmd ∉ knownCommands := by
  rw [need, Option.map_eq_none_iff, commandRow_eq_none_iff]

/-- A message whose command byte has no row is no command, whichever check turns it away (R156). -/
theorem decode_unknown (c : Config) (l0 l1 : Byte) {cmd : Byte} (args : List Byte)
    (h : cmd ∉ knownCommands) : ∃ e, decode c (l0 :: l1 :: cmd :: args) = .error e := by
  rw [decode_cons, (commandRow_eq_none_iff cmd).2 h]
  by_cases hlen : u16 l0 l1 = 1 + args.length
  · exact ⟨.unknownCommand, if_pos hlen⟩
  · exact ⟨.lengthMismatch, if_neg hlen⟩

/-- A list with a third entry starts with three entries. -/
theorem exists_eq_cons_of_getElem?_two {m : List Byte} {cmd : Byte} (h : m[2]? = some cmd) :
    ∃ l0 l1 args, m = l0 :: l1 :: cmd :: args := by
  match m, h with
  | l0 :: l1 :: _ :: args, rfl => exact ⟨l0, l1, args, rfl⟩

/-- Settles O5: the parser has no row for the byte (`decode_unknown`); the values are counted. -/
theorem unknownCommandsIgnored : Obligations.UnknownCommandsIgnored := by
  refine ⟨by decide +kernel, fun m cmd s hcmd hunknown => ?_⟩
  obtain ⟨l0, l1, args, rfl⟩ := exists_eq_cons_of_getElem?_two hcmd
  obtain ⟨e, he⟩ := decode_unknown s.cfg l0 l1 args hunknown
  exact dispatch_of_decode_error he

/-- The row of an instruction's command byte makes the instruction from its own argument bytes
(R92, R93). -/
theorem commandRow_cmd (i : Instr) :
    ∃ row, commandRow i.cmd = some row ∧
      row.2.2 (addrOperand i.args) (wordsOf (i.args.drop 4)) = i := by
  have hdrop (a : Word) (ws : List Word) : (le32 a ++ bytesOf ws).drop 4 = bytesOf ws := rfl
  cases i
  case erasePage a => exact ⟨_, rfl, congrArg Instr.erasePage (addrOperand_le32 a [])⟩
  case readAddr a => exact ⟨_, rfl, congrArg Instr.readAddr (addrOperand_le32 a [])⟩
  case readMax a => exact ⟨_, rfl, congrArg Instr.readMax (addrOperand_le32 a [])⟩
  case writeRow a ws =>
    exact ⟨_, rfl, by simp only [Instr.args, addrOperand_le32, hdrop, wordsOf_bytesOf]⟩
  case writeMax a ws =>
    exact ⟨_, rfl, by simp only [Instr.args, addrOperand_le32, hdrop, wordsOf_bytesOf]⟩
  all_goals exact ⟨_, rfl, rfl⟩

/-- The parser reads a well-formed instruction back from its message, as long as the length field fits
16 bits. -/
theorem decode_instr_message {c : Config} {i : Instr} (hwf : i.wellFormed c = true)
    (hfits : 1 + i.args.length ≤ 0xFFFF) : decode c i.message = .ok i := by
  obtain ⟨row, hrow, hmake⟩ := commandRow_cmd i
  have hargc : i.args.length = row.2.1.argc c := by
    simpa [need, hrow, eq_comm] using need_cmd c i hwf
  rw [Instr.message, decode_message_eq, if_pos hfits, hrow]
  exact (if_pos hargc).trans (congrArg _ hmake)

/-- The argument counts of R154: the 14 bytes one by one, and no row for any other. -/
theorem need_eq (c : Config) (cmd : Byte) : need c cmd =
    if cmd ∈ [0x00#8, 0x01#8, 0x02#8, 0x03#8, 0x04#8, 0x05#8, 0x06#8, 0x07#8, 0x40#8] then some 0
    else if cmd ∈ [0x10#8, 0x20#8, 0x21#8] then some 4
    else if cmd = 0x30#8 then some (4 + 4 * c.rowWords)
    else if cmd = 0x31#8 then some (4 + 4 * c.maxWords)
    else none := by
  by_cases hknown : cmd ∈ knownCommands
  · simp only [knownCommands, List.mem_cons, List.not_mem_nil, or_false] at hknown
    obtain rfl | rfl | rfl | rfl | rfl | rfl | rfl | rfl | rfl | rfl | rfl | rfl | rfl | rfl :=
      hknown <;> rfl
  · rw [(need_eq_none_iff c cmd).2 hknown]
    simp only [knownCommands, List.mem_cons, List.not_mem_nil, or_false, not_or] at hknown
    simp [hknown]

/-- Settles O7: the counts by `need_eq`; the parser gives the instruction back, and the dispatcher runs
what the parser gives. -/
theorem dispatchRunsTheCommand : Obligations.DispatchRunsTheCommand :=
  ⟨need_eq, fun _ _ hwf hfits => dispatch_of_decode_ok (decode_instr_message hwf hfits)⟩

end Sys2Proof.Machine
end

section
/-! The row write outside the refused addresses: one row write of the flash, whose frame holds every
register (R187). -/

namespace Sys2Proof.Machine

theorem exec_writeRow_of_allowed {A : Word} {words : List Word} {s : State}
    (h : ¬ writeRefused s.cfg A = true) :
    exec (.writeRow A words) s = .next (flashWriteRow A (forceStub s.cfg A words) s) :=
  if_neg h

theorem flashWriteRow_sameRegisters (a : Word) (ws : List Word) (s : State) :
    SameRegisters s (flashWriteRow a ws s) := by
  simp [SameRegisters, SameButSums]

/-- Settles O27: R63's guard decides between the two rules of the command, `exec_writeRow_of_refused` and
`exec_writeRow_of_allowed`. -/
theorem writeRowEffect : Obligations.WriteRowEffect := by
  intro A words s
  rw [← writeRefused_iff]
  exact ⟨exec_writeRow_of_refused, fun hallowed =>
    ⟨_, exec_writeRow_of_allowed hallowed, flashWriteRow_trace A _ s,
      flashWriteRow_sameRegisters A _ s⟩⟩

end Sys2Proof.Machine
end

section
/-! The boot window (R203, R207): it expires past the threshold with the abort signal released, so the signal
holds it open, and the hand-over that follows leaves a mode without steps (R205). -/

namespace Sys2Proof.Machine

theorem windowExpired_of_threshold_lt {c : Config} {t : Nat} (h : c.bootThreshold < t) :
    windowExpired c t false = true := by
  simp [windowExpired, h]

@[simp] theorem windowExpired_of_abort (c : Config) (t : Nat) : windowExpired c t true = false := by
  simp [windowExpired]

theorem step_of_threshold_lt {s : State} (hc : s.cfg.WellFormed) (hb : s.bootState = .listening)
    (ht : s.cfg.bootThreshold < s.elapsed + (nextInput s).tickAdvance)
    (ha : (nextInput s).abort = false) : step s = .next (handOver (sampled s)) := by
  refine step_expired hc hb ?_
  rw [ha]
  exact windowExpired_of_threshold_lt ht

theorem step_ne_next_of_running {s : State} (hb : s.bootState = .running) (t : State) :
    step s ≠ .next t := by
  intro h
  obtain ⟨-, hlistening, -⟩ := step_cases h
  simp [hb] at hlistening

theorem exec_startApp (s : State) : exec .startApp s = .next (handOver s) := rfl

/-- Settles O40: both ways are the operation `handOver`, by the step in `step_of_threshold_lt` and by the
command in `exec_startApp`; no step follows in `Running`. -/
theorem windowExpiryAndStartCommandHandOver : Obligations.WindowExpiryAndStartCommandHandOver := by
  refine ⟨fun s hc hb ht ha => ?_, fun s => ?_⟩
  · have hnoStep := step_ne_next_of_running (handOver_bootState (sampled s))
    exact ⟨_, step_of_threshold_lt hc hb ht ha, handOver_bootState _, by simp, by simp,
      by simp [SameDecoder], by simp, by simp, hnoStep⟩
  · exact ⟨_, exec_startApp s, handOver_bootState s, handOver_trace s⟩

/-- Settles O41: with the signal held the window is open, so the step is the rule for its byte or for none;
with the signal released it is the hand-over. -/
theorem abortHoldsTheWindowOpen : Obligations.AbortHoldsTheWindowOpen := by
  refine ⟨fun s hc hb ha => ⟨?_, hb⟩, fun s hc hb ha ht => ?_⟩
  · have hopen : windowExpired s.cfg (s.elapsed + (nextInput s).tickAdvance)
        (nextInput s).abort = false := by
      rw [ha, windowExpired_of_abort]
    cases hr : (nextInput s).rx with
    | none => exact step_of_no_byte hc hb hopen hr
    | some b => exact step_of_byte hc hb hopen hr
  · exact ⟨_, step_of_threshold_lt hc hb ht ha, handOver_bootState _⟩

end Sys2Proof.Machine
end

section
/-! The wire layer undone (R84): the reader of a frame takes `E` off each byte, so the frame of a body gives the
body back, and a body made by the encoder verifies against its own trailer. -/

namespace Sys2Proof

theorem escape_of_marker {d : Byte} (h : isMarker d = true) : escape d = [escMarker, d ^^^ escXor] :=
  if_pos h

theorem escape_of_not_marker {d : Byte} (h : ¬ isMarker d = true) : escape d = [d] :=
  if_neg h

/-- One escaped byte is read as the byte it stands for. -/
theorem unframe_escape_append (d : Byte) (rest : List Byte) :
    unframe false (escape d ++ rest) = (unframe false rest).map (d :: ·) := by
  by_cases h : isMarker d = true
  · simp [escape_of_marker h, unframe]
  · rw [escape_of_not_marker h]
    simp only [isMarker_iff, not_or] at h
    simp [unframe, h]

theorem unframe_flatMap_escape (body : List Byte) :
    unframe false (body.flatMap escape ++ [endMarker]) = .ok body := by
  induction body with
  | nil => rfl
  | cons d body ih =>
    rw [List.flatMap_cons, List.append_assoc, unframe_escape_append, ih]
    rfl

/-- A frame whose body the buffer can hold is read as its body is. -/
theorem decodeFrame_frame {c : Config} {cmd : Byte} {args : List Byte}
    (hcap : 5 + args.length ≤ c.rxCap) :
    decodeFrame c (frame cmd args) = decodeBody c (frameBody cmd args) := by
  have hframe : frame cmd args =
      startMarker :: ((frameBody cmd args).flatMap escape ++ [endMarker]) := by
    simp [frame]
  simp only [hframe, decodeFrame, unframe_flatMap_escape, frameBody_length, Nat.not_lt.2 hcap,
    if_true, if_false]

theorem verify_frameBody (cmd : Byte) (args : List Byte) : verify (frameBody cmd args) = true := by
  rw [frameBody_eq, verify_append_iff, f16_toNat]

theorem frameBody_take_message (cmd : Byte) (args : List Byte) :
    (frameBody cmd args).take ((frameBody cmd args).length - 2) = message cmd args := by
  simp [frameBody_eq]

theorem decodeBody_frameBody (c : Config) (cmd : Byte) (args : List Byte) :
    decodeBody c (frameBody cmd args) = decode c (message cmd args) := by
  have hlong : ¬ (frameBody cmd args).length < 2 := by
    rw [frameBody_length]
    omega
  rw [decodeBody, if_neg hlong, if_pos (verify_frameBody cmd args), frameBody_take_message]

/-- A message whose length does not fit its field is turned away by that field (assumption 18). -/
theorem decode_message_of_too_long {c : Config} {cmd : Byte} {args : List Byte}
    (h : 0xFFFF < 1 + args.length) : decode c (message cmd args) = .error .lengthMismatch := by
  rw [decode_message_eq, if_neg (Nat.not_le.2 h)]

/-- Settles O3: both layers come off (`decodeFrame_frame`, `decodeBody_frameBody`), and what the parser makes
of the message is the length field's matter. -/
theorem decodeFrameInvertsEncode : Obligations.DecodeFrameInvertsEncode := by
  intro c i hc hi
  have hdecode : decodeFrame c (encode i) = decode c i.message :=
    (decodeFrame_frame (body_fits hc i hi)).trans (decodeBody_frameBody c i.cmd i.args)
  rw [hdecode]
  exact ⟨Machine.decode_instr_message hi, decode_message_of_too_long⟩

end Sys2Proof
end

section
/-! The parser accepts nothing but the message of the command it gives: a row of the table, applied to as many
argument bytes as its format asks for, makes the instruction with these very bytes (R91 to R93). -/

namespace Sys2Proof

/-- `i` is the instruction with this command byte and these argument bytes, and fits its format. -/
structure Instr.MadeOf (c : Config) (i : Instr) (cmd : Byte) (args : List Byte) : Prop where
  wellFormed : i.wellFormed c = true
  cmd : i.cmd = cmd
  args : i.args = args

/-- Four bytes or more are the address they make and the bytes after it. -/
theorem le32_addrOperand_append_drop {args : List Byte} (h : 4 ≤ args.length) :
    le32 (addrOperand args) ++ args.drop 4 = args := by
  match args, h with
  | b0 :: b1 :: b2 :: b3 :: rest, _ => simp [addrOperand, le32_u32]

/-- An address and a number of words are the argument bytes they are read from. -/
theorem le32_append_bytesOf_wordsOf {args : List Byte} {n : Nat} (h : args.length = 4 + 4 * n) :
    le32 (addrOperand args) ++ bytesOf (wordsOf (args.drop 4)) = args ∧
      (wordsOf (args.drop 4)).length = n := by
  obtain ⟨hbytes, hlength⟩ := bytesOf_wordsOf n (args.drop 4) (by rw [List.length_drop]; omega)
  exact ⟨by rw [hbytes, le32_addrOperand_append_drop (by omega)], hlength⟩

theorem le32_addrOperand {args : List Byte} (h : args.length = 4) : le32 (addrOperand args) = args := by
  simpa [List.drop_eq_nil_of_le h.le] using le32_addrOperand_append_drop h.ge

/-- Every row of the command table makes the instruction of its command byte and arguments. -/
theorem commandTable_madeOf (c : Config) {args : List Byte} :
    ∀ row ∈ commandTable, args.length = row.2.1.argc c →
      (row.2.2 (addrOperand args) (wordsOf (args.drop 4))).MadeOf c row.1 args := by
  have hnone (h : args.length = 0) : [] = args := (List.length_eq_zero_iff.1 h).symm
  have haddr (h : args.length = 4) : le32 (addrOperand args) = args := le32_addrOperand h
  simp only [commandTable, List.forall_mem_cons, Format.argc]
  refine ⟨?_, ?_, ?_, ?_, ?_, ?_, ?_, ?_, ?_, ?_, ?_, ?_, ?_, ?_, List.forall_mem_nil _⟩ <;> intro h
  -- formats in table order: A in rows 9 to 11, AR and AM in rows 12 and 13, N in all others
  case refine_9 | refine_10 | refine_11 => exact ⟨rfl, rfl, haddr h⟩
  case refine_12 | refine_13 =>
    obtain ⟨hargs, hwords⟩ := le32_append_bytesOf_wordsOf h
    exact ⟨beq_iff_eq.2 hwords, rfl, hargs⟩
  all_goals exact ⟨rfl, rfl, hnone h⟩

/-- What the parser has checked of a message that it accepts. -/
theorem decode_eq_ok {c : Config} {m : List Byte} {i : Instr} (h : decode c m = .ok i) :
    ∃ l0 l1 cmd args row, m = l0 :: l1 :: cmd :: args ∧ u16 l0 l1 = 1 + args.length ∧
      commandRow cmd = some row ∧ args.length = row.2.1.argc c ∧
      row.2.2 (addrOperand args) (wordsOf (args.drop 4)) = i := by
  match m, h with
  | l0 :: l1 :: cmd :: args, h =>
    rw [decode_cons] at h
    split at h
    · rename_i hlength
      cases hrow : commandRow cmd with
      | none => simp [hrow] at h
      | some row =>
        simp only [hrow] at h
        split at h
        · rename_i hargc
          exact ⟨l0, l1, cmd, args, row, rfl, hlength, hrow, hargc, Except.ok.inj h⟩
        · cases h
    · cases h

/-- Settles O4: the row found makes the instruction of the message's own bytes (`commandTable_madeOf`), and a
length field that has passed the check is the one the encoder writes (`le16_u16`). -/
theorem decodeAcceptsOnlyOwnMessage : Obligations.DecodeAcceptsOnlyOwnMessage := by
  intro c m i h
  obtain ⟨l0, l1, cmd, args, row, rfl, hlength, hrow, hargc, rfl⟩ := decode_eq_ok h
  obtain ⟨hwf, hcmd, hargs⟩ := commandTable_madeOf c row (List.mem_of_find?_eq_some hrow) hargc
  have hrowCmd : row.1 = cmd := by simpa using List.find?_some hrow
  refine ⟨hwf, ?_⟩
  rw [Instr.message, hcmd, hargs, hrowCmd, message, ← hlength, le16_u16]
  rfl

end Sys2Proof

namespace Sys2Proof.Machine

theorem dispatch_of_decode_ne_ok {m : List Byte} {s : State} (h : ∀ i, decode s.cfg m ≠ .ok i) :
    dispatch m s = .next s := by
  obtain ⟨_, -, hd⟩ | ⟨i, hi, -⟩ := dispatch_cases m s
  · exact hd
  · exact absurd hi (h i)

/-- Settles O6: each clause contradicts one of the checks that an accepted message has passed
(`decode_eq_ok`); the last is `decode_message_of_too_long`. -/
theorem malformedMessagesIgnored : Obligations.MalformedMessagesIgnored := by
  refine ⟨fun m s hshort => ?_, fun l0 l1 rest s hlength => ?_, fun l0 l1 cmd args s hneed => ?_,
    fun s i _ hlong => dispatch_of_decode_error (decode_message_of_too_long hlong)⟩
  · refine dispatch_of_decode_ne_ok fun i hi => ?_
    obtain ⟨l0, l1, cmd, args, -, rfl, -⟩ := decode_eq_ok hi
    simp only [List.length_cons] at hshort
    omega
  · refine dispatch_of_decode_ne_ok fun i hi => ?_
    obtain ⟨_, _, cmd, args, -, hm, hfield, -⟩ := decode_eq_ok hi
    obtain ⟨rfl, rfl, rfl⟩ : _ ∧ _ ∧ rest = cmd :: args := by simpa using hm
    rw [List.length_cons] at hlength
    omega
  · refine dispatch_of_decode_ne_ok fun i hi => ?_
    obtain ⟨_, _, _, _, row, hm, -, hrow, hargc, -⟩ := decode_eq_ok hi
    obtain ⟨rfl, rfl, rfl, rfl⟩ : _ ∧ _ ∧ _ ∧ _ := by simpa using hm
    exact hneed (by rw [need, hrow, hargc]; rfl)

end Sys2Proof.Machine
end

section
/-! One changed byte (40_checksum.md): each byte enters the sums injectively, and no later byte brings two
different pairs of sums together. -/

namespace Sys2Proof

theorem f16Step_left_injective (b : Byte) : Function.Injective (f16Step · b) := by
  rintro ⟨x1, x2⟩ ⟨y1, y2⟩ h
  obtain ⟨h1, h2⟩ := Prod.mk.inj h
  obtain rfl : x1 = y1 := (BitVec.add_left_inj b).1 h1
  obtain rfl : x2 = y2 := (BitVec.add_left_inj _).1 h2
  rfl

theorem f16Step_right_injective (p : Byte × Byte) : Function.Injective (f16Step p) :=
  fun _ _ h => (BitVec.add_right_inj p.1).1 (Prod.mk.inj h).1

theorem foldl_f16Step_injective (q : List Byte) :
    Function.Injective (fun p : Byte × Byte => q.foldl f16Step p) := by
  induction q with
  | nil => exact Function.injective_id
  | cons b q ih => exact ih.comp (f16Step_left_injective b)

/-- Settles O10: the bytes after the change, the changed byte and the value of the sums are undone in turn. -/
theorem oneByteChangeChangesChecksum : Obligations.OneByteChangeChangesChecksum := by
  intro p q b b' hb h
  have hsums : f16Sums (p ++ b :: q) = f16Sums (p ++ b' :: q) := f16Value_injective h
  rw [f16Sums_append, f16Sums_append] at hsums
  exact hb (f16Step_right_injective _ (foldl_f16Step_injective q hsums))

end Sys2Proof
end

section
/-! What stands between the two markers of a frame (R82, R90). -/

namespace Sys2Proof

theorem startMarker_notMem_flatMap_escape (body : List Byte) : startMarker ∉ body.flatMap escape := by
  simp only [List.mem_flatMap, not_exists, not_and]
  exact fun d _ => (escape_hides_markers d).1

theorem endMarker_notMem_flatMap_escape (body : List Byte) : endMarker ∉ body.flatMap escape := by
  simp only [List.mem_flatMap, not_exists, not_and]
  exact fun d _ => (escape_hides_markers d).2

/-- Each marker costs one byte more on the wire. -/
theorem length_flatMap_escape (body : List Byte) :
    (body.flatMap escape).length = body.length + body.countP isMarker := by
  induction body with
  | nil => rfl
  | cons d body ih =>
    rw [List.flatMap_cons, List.length_append, escape_length, ih, List.length_cons, List.countP_cons]
    omega

/-- Settles O12: the bytes between the markers are the escaped body. -/
theorem frameHidesItsMarkers : Obligations.FrameHidesItsMarkers := by
  intro cmd args
  refine ⟨(frameBody cmd args).flatMap escape, rfl, startMarker_notMem_flatMap_escape _,
    endMarker_notMem_flatMap_escape _, ?_⟩
  simp only [frame, List.length_append, List.length_singleton, length_flatMap_escape,
    frameBody_length]
  omega

end Sys2Proof
end

section
/-! Data bytes in the decoder (R130 to R134): `append` stores or overflows, whichever state the byte came in. -/

namespace Sys2Proof.Machine

theorem decodeStep_escaped {s : State} (b : Byte) (h : s.rxState = .escaped) :
    decodeStep b s = .next (append (b ^^^ escXor) s) := by
  simp only [decodeStep, h]

theorem decodeStep_data {s : State} {b : Byte} (h : s.rxState = .verbatim) (hesc : b ≠ escMarker)
    (hend : b ≠ endMarker) : decodeStep b s = .next (append b s) := by
  rw [decodeStep_verbatim b h, if_neg hesc, if_neg hend]

theorem append_of_full {s : State} (d : Byte) (h : s.rxLen = s.cfg.rxCap) :
    append d s = decoderIdle s :=
  if_pos h

theorem append_of_room {s : State} (d : Byte) (h : s.rxLen ≠ s.cfg.rxCap) :
    append d s =
      { s with buf := Memory.write s.buf s.rxLen d, rxLen := s.rxLen + 1, rxState := .verbatim } :=
  if_neg h

/-- Settles O14: either way the byte is `append`ed, and the sparse memory's laws say what a write leaves. -/
theorem dataByteStoredOrOverflows : Obligations.DataByteStoredOrOverflows := by
  intro s b d hdata
  have happend : decodeStep b s = .next (append d s) := by
    obtain ⟨hrx, hesc, hend, rfl⟩ | ⟨hrx, rfl⟩ := hdata
    · exact decodeStep_data hrx hesc hend
    · exact decodeStep_escaped b hrx
  rw [happend]
  refine ⟨fun hfull => congrArg _ (append_of_full d hfull), fun hroom => ⟨_, rfl, ?_⟩⟩
  rw [append_of_room d hroom]
  exact ⟨Memory.read_write_same _ _ _, fun j hj => Memory.read_write_other _ _ hj, rfl⟩

end Sys2Proof.Machine
end

section
/-! The decoder on a run of bytes (R139). A data byte has two wire forms, its escaped bytes and, where it is no
`ESC` or `END`, itself; a list of data bytes in either form fills the buffer, or overflows it and is then
ignored up to the next `START`. -/

namespace Sys2Proof.Machine

theorem decodeRun_cons {b : Byte} {bytes : List Byte} {s t : State} (hb : s.bootState = .listening)
    (h : decodeStep b s = .next t) : decodeRun (b :: bytes) s = decodeRun bytes t := by
  simp only [decodeRun, hb, h]

theorem decodeRun_singleton {b : Byte} {s : State} (hb : s.bootState = .listening) :
    decodeRun [b] s = decodeStep b s := by
  obtain ⟨t, ht, -⟩ := decodeStep_completes_cfg b s
  rw [decodeRun_cons hb ht, ht, decodeRun]

theorem decodeRun_of_running {s : State} (bytes : List Byte) (hb : s.bootState = .running) :
    decodeRun bytes s = .next s := by
  cases bytes with
  | nil => rfl
  | cons b bytes => simp only [decodeRun, hb]

/-- A run in two parts. -/
theorem decodeRun_append {bytes : List Byte} (more : List Byte) {s t : State}
    (h : decodeRun bytes s = .next t) : decodeRun (bytes ++ more) s = decodeRun more t := by
  induction bytes generalizing s with
  | nil =>
    obtain rfl := Host.Outcome.next.inj h
    rfl
  | cons b bytes ih =>
    cases hb : s.bootState with
    | running =>
      obtain rfl := Host.Outcome.next.inj ((decodeRun_of_running _ hb).symm.trans h)
      rw [decodeRun_of_running _ hb, decodeRun_of_running _ hb]
    | listening =>
      obtain ⟨u, hu, -⟩ := decodeStep_completes_cfg b s
      rw [decodeRun_cons hb hu] at h
      rw [List.cons_append, decodeRun_cons hb hu, ih h]

/-- Outside a frame everything but `START` is ignored (R129). -/
theorem decodeRun_ignored {bytes : List Byte} {s : State} (hb : s.bootState = .listening)
    (hrx : s.rxState = .waitForStart) (hbytes : startMarker ∉ bytes) :
    decodeRun bytes s = .next s := by
  induction bytes with
  | nil => rfl
  | cons b bytes ih =>
    obtain ⟨hne, hrest⟩ := not_or.1 (List.mem_cons.not.1 hbytes)
    have hignored : decodeStep b s = .next s :=
      (decodeStep_waitForStart b hrx).trans (if_neg (Ne.symm hne))
    rw [decodeRun_cons hb hignored, ih hrest]

/-- These wire bytes are one data byte to a decoder inside a frame. -/
def Carries (wire : List Byte) (d : Byte) : Prop :=
  ∀ s : State, s.bootState = .listening → s.rxState = .verbatim →
    decodeRun wire s = .next (append d s)

theorem carries_raw {d : Byte} (hesc : d ≠ escMarker) (hend : d ≠ endMarker) : Carries [d] d := by
  intro s hb hrx
  rw [decodeRun_singleton hb, decodeStep_data hrx hesc hend]

/-- Which state the byte came in makes no difference to `append`. -/
theorem append_set_rxState (d : Byte) (s : State) (r : RxState) :
    append d { s with rxState := r } = append d s := by
  by_cases h : s.rxLen = s.cfg.rxCap
  · rw [append_of_full d h, append_of_full d (s := { s with rxState := r }) h]
    rfl
  · rw [append_of_room d h, append_of_room d (s := { s with rxState := r }) h]

/-- `E` undone by the decoder (R84): an escaped marker through `Escaped`, any other byte as it is. -/
theorem carries_escape (d : Byte) : Carries (escape d) d := by
  by_cases h : isMarker d = true
  · intro s hb hrx
    have hesc : decodeStep escMarker s = .next { s with rxState := .escaped } :=
      (decodeStep_verbatim _ hrx).trans (if_pos rfl)
    rw [escape_of_marker h, decodeRun_cons hb hesc, decodeRun_singleton (by exact hb),
      decodeStep_escaped _ rfl, xor_escXor_twice, append_set_rxState]
  · rw [escape_of_not_marker h]
    simp only [isMarker_iff, not_or] at h
    exact carries_raw h.2.2 h.2.1

/-- Data bytes that the buffer can hold are stored one after the other. -/
theorem decodeRun_carried {wire : Byte → List Byte} {body : List Byte} {s : State}
    (hwire : ∀ d ∈ body, Carries (wire d) d) (hb : s.bootState = .listening)
    (hrx : s.rxState = .verbatim) (hcap : s.rxLen + body.length ≤ s.cfg.rxCap) :
    decodeRun (body.flatMap wire) s =
      .next { s with
        rxLen := s.rxLen + body.length, buf := Memory.writeBlock 1 s.buf s.rxLen body } := by
  induction body generalizing s with
  | nil => rfl
  | cons d body ih =>
    rw [List.length_cons] at hcap
    have hd : decodeRun (wire d) s = .next (append d s) := hwire d (by simp) s hb hrx
    rw [append_of_room d (by omega)] at hd
    rw [List.flatMap_cons, decodeRun_append _ hd,
      ih (fun e he => hwire e (List.mem_cons_of_mem d he)) (by exact hb) (by rfl)
        (by simp only; omega)]
    simp [hrx, Memory.writeBlock, Nat.add_assoc, Nat.add_comm 1]

/-- After `START` and a body that the buffer can hold. -/
theorem decodeRun_start_carried {wire : Byte → List Byte} {body : List Byte} {s : State}
    (hwire : ∀ d ∈ body, Carries (wire d) d) (hb : s.bootState = .listening)
    (hrx : s.rxState = .waitForStart) (hcap : body.length ≤ s.cfg.rxCap) :
    decodeRun (startMarker :: body.flatMap wire) s = .next (afterBody body s) := by
  have hstart : decodeStep startMarker s = .next { s with rxState := .verbatim, rxLen := 0 } :=
    (decodeStep_waitForStart _ hrx).trans (if_pos rfl)
  rw [decodeRun_cons hb hstart, decodeRun_carried hwire (by exact hb) (by rfl) (by simpa using hcap)]
  simp [afterBody]

/-- After `START` and one byte more than the buffer can hold. -/
theorem decodeRun_start_overflow {wire : Byte → List Byte} {body : List Byte} {d : Byte} {s : State}
    (hwire : ∀ e ∈ body ++ [d], Carries (wire e) e) (hb : s.bootState = .listening)
    (hrx : s.rxState = .waitForStart) (hcap : body.length = s.cfg.rxCap) :
    decodeRun (startMarker :: (body ++ [d]).flatMap wire) s =
      .next (decoderIdle (afterBody body s)) := by
  have hbody := decodeRun_start_carried (wire := wire)
    (fun e he => hwire e (List.mem_append_left _ he)) hb hrx hcap.le
  rw [List.flatMap_append, ← List.cons_append, decodeRun_append _ hbody, List.flatMap_singleton,
    hwire d (by simp) (afterBody body s) hb rfl, append_of_full]
  exact hcap

/-- An idle decoder whose buffer held `body` differs from what it was in the buffer alone. -/
theorem decoderIdle_afterBody (body : List Byte) (s : State) :
    decoderIdle (afterBody body s) =
      { s with
        buf := (decoderIdle (afterBody body s)).buf, rxLen := 0, rxState := .waitForStart } :=
  rfl

/-- A list longer than `n` has `n` entries before one more. -/
theorem exists_eq_append_singleton_append {α : Type} {l : List α} {n : Nat} (h : n < l.length) :
    ∃ pre d post, l = pre ++ [d] ++ post ∧ pre.length = n :=
  ⟨l.take n, l[n], l.drop (n + 1), by rw [List.take_append_getElem, List.take_append_drop],
    by simp [h.le]⟩

/-- Settles O17: the first byte too many resets the decoder (`decodeRun_start_overflow`), and of the bytes after
it none is a raw `START`. -/
theorem oversizeBodyResetsTheDecoder : Obligations.OversizeBodyResetsTheDecoder := by
  refine ⟨fun s body hb hrx hcap => ?_, fun s ds hb hrx hlength hdata => ?_⟩
  · obtain ⟨pre, d, post, rfl, hpre⟩ := exists_eq_append_singleton_append hcap
    have hoverflow := decodeRun_start_overflow (d := d) (fun e _ => carries_escape e) hb hrx hpre
    have hignored {rest : List Byte} (hrest : startMarker ∉ rest) :
        decodeRun rest (decoderIdle (afterBody pre s)) = .next (decoderIdle (afterBody pre s)) :=
      decodeRun_ignored hb rfl hrest
    have htail := startMarker_notMem_flatMap_escape post
    have htailEnd : startMarker ∉ post.flatMap escape ++ [0x7F#8] := by
      simpa [htail] using (by decide : startMarker ≠ 0x7F#8)
    refine ⟨_, decoderIdle_afterBody pre s, ?_, ?_⟩ <;>
      rw [List.flatMap_append]
    · exact (decodeRun_append _ hoverflow).trans (hignored htail)
    · rw [List.append_assoc]
      exact (decodeRun_append _ hoverflow).trans (hignored htailEnd)
  · obtain ⟨body, d, post, rfl, hbody⟩ := exists_eq_append_singleton_append
      (show s.cfg.rxCap < ds.length by omega)
    obtain rfl : post = [] := List.length_eq_zero_iff.1 (by simp at hlength; omega)
    have hoverflow := decodeRun_start_overflow (wire := fun e => [e]) (body := body) (d := d)
      (fun e he => carries_raw (hdata e (by simpa using he)).1 (hdata e (by simpa using he)).2)
      hb hrx hbody
    refine ⟨_, ?_, decoderIdle_afterBody body s⟩
    rwa [List.flatMap_singleton', ← List.append_nil (body ++ [d])] at hoverflow

end Sys2Proof.Machine
end

section
/-! A whole frame in the decoder: the buffer gives back the body, the trailer verifies, and the dispatcher gets
the message (R133). -/

namespace Sys2Proof.Machine

theorem bufBody_afterBody (body : List Byte) (s : State) : bufBody (afterBody body s) = body := by
  refine List.ext_getElem (bufBody_length _) fun i _ hi => ?_
  have hread : Memory.read (Memory.writeBlock 1 s.buf 0 body) i = some body[i] := by
    simpa [hi] using Memory.read_writeBlock Nat.one_pos s.buf 0 body hi
  simp [bufBody, bufByte, afterBody, hread]

theorem completedMessage_afterBody_frameBody (cmd : Byte) (args : List Byte) (s : State) :
    completedMessage (afterBody (frameBody cmd args) s) = some (message cmd args) := by
  refine completedMessage_eq_some_iff.2 ⟨?_, ?_, ?_⟩
  · show 2 ≤ (frameBody cmd args).length
    rw [frameBody_length]
    omega
  · rw [bufBody_afterBody, verify_frameBody]
  · rw [bufBody_afterBody]
    exact frameBody_take_message cmd args

/-- The end marker after a body that the encoder made. -/
theorem decodeStep_endMarker_afterBody (cmd : Byte) (args : List Byte) {s : State} :
    decodeStep endMarker (afterBody (frameBody cmd args) s) =
      onNext decoderIdle (dispatch (message cmd args) (afterBody (frameBody cmd args) s)) := by
  rw [decodeStep_endMarker rfl, complete_of_message (completedMessage_afterBody_frameBody ..)]

/-- A frame but for its end marker leaves its body in the buffer. -/
theorem decodeRun_start_frameBody {cmd : Byte} {args : List Byte} {s : State}
    (hb : s.bootState = .listening) (hrx : s.rxState = .waitForStart)
    (hcap : 5 + args.length ≤ s.cfg.rxCap) :
    decodeRun (startMarker :: (frameBody cmd args).flatMap escape) s =
      .next (afterBody (frameBody cmd args) s) :=
  decodeRun_start_carried (fun d _ => carries_escape d) hb hrx (by rwa [frameBody_length])

/-- Settles O16: `START` and body fill the buffer, the end marker dispatches, and every dispatch completes. -/
theorem frameReachesTheDispatcher : Obligations.FrameReachesTheDispatcher := by
  intro cmd args s hb hrx hcap
  obtain ⟨t, ht, -⟩ := dispatch_completes_cfg (message cmd args) (afterBody (frameBody cmd args) s)
  refine ⟨t, ht, ?_⟩
  have hbody := decodeRun_start_frameBody (cmd := cmd) hb hrx hcap
  have hend : decodeRun [endMarker] (afterBody (frameBody cmd args) s) = .next (decoderIdle t) := by
    rw [decodeRun_singleton (by exact hb), decodeStep_endMarker_afterBody, ht, onNext_next]
  exact (decodeRun_append _ hbody).trans hend

end Sys2Proof.Machine
end

section
/-! What an operation of a command adds to the trace, and that nothing else but sums and the count of free
values moves: the flash record and the mode are those that the events make (R34, R67). -/

namespace Sys2Proof.Machine

/-- From `s` to `t` the events `es` have happened: they are the new end of the trace, the flash record and the
mode are what they make of those of `s`, and the parameters are the same. -/
structure Logs (s t : State) (es : List Event) : Prop where
  trace : t.trace = s.trace ++ es
  flash : t.flash = flashAfterEvents s.cfg es s.flash
  bootState : t.bootState = if es.any isStartApp = true then .running else s.bootState
  cfg : t.cfg = s.cfg

/-- The events `es` have happened, and the decoder's registers and the environment's answers are the same. -/
structure Emits (s t : State) (es : List Event) : Prop extends Logs s t es where
  rxState : t.rxState = s.rxState
  rxLen : t.rxLen = s.rxLen
  buf : t.buf = s.buf
  inputs : t.inputs = s.inputs
  elapsed : t.elapsed = s.elapsed

theorem Logs.trans {s t u : State} {es fs : List Event} (h : Logs s t es) (h' : Logs t u fs) :
    Logs s u (es ++ fs) where
  trace := by rw [h'.trace, h.trace, List.append_assoc]
  flash := by rw [h'.flash, h.flash, h.cfg, flashAfterEvents_append]
  bootState := by
    rw [h'.bootState, h.bootState, List.any_append]
    cases es.any isStartApp <;> simp
  cfg := h'.cfg.trans h.cfg

theorem Emits.refl (s : State) : Emits s s [] :=
  ⟨⟨(List.append_nil _).symm, rfl, rfl, rfl⟩, rfl, rfl, rfl, rfl, rfl⟩

theorem Emits.trans {s t u : State} {es fs : List Event} (h : Emits s t es) (h' : Emits t u fs) :
    Emits s u (es ++ fs) where
  toLogs := h.toLogs.trans h'.toLogs
  rxState := h'.rxState.trans h.rxState
  rxLen := h'.rxLen.trans h.rxLen
  buf := h'.buf.trans h.buf
  inputs := h'.inputs.trans h.inputs
  elapsed := h'.elapsed.trans h.elapsed

/-- Without a hand-over among its events an operation keeps the mode, and so every register but the sums. -/
theorem Emits.sameButSums {s t : State} {es : List Event} (h : Emits s t es)
    (hes : ∀ e ∈ es, isStartApp e = false) : SameButSums s t := by
  have hnone : es.any isStartApp = false := List.any_eq_false.2 fun e he => by simp [hes e he]
  exact ⟨h.cfg, by simpa [hnone] using h.bootState, h.rxState, h.rxLen, h.buf⟩

/-- The event is a read of the flash or a byte sent: all that a read command does (R157). -/
def isReadOrTx : Event → Bool
  | .flashRead _ _ => true
  | .tx _ => true
  | _ => false

theorem isMutation_of_isReadOrTx {e : Event} (h : isReadOrTx e = true) : isMutation e = false := by
  cases e with
  | flashRead | tx => rfl
  | wdt | flashErase | flashWriteRow | startApp => cases h

theorem isStartApp_of_isReadOrTx {e : Event} (h : isReadOrTx e = true) : isStartApp e = false := by
  cases e with
  | flashRead | tx => rfl
  | wdt | flashErase | flashWriteRow | startApp => cases h

theorem isStartApp_of_isMutation {e : Event} (h : isMutation e = true) : isStartApp e = false := by
  cases e with
  | flashErase | flashWriteRow => rfl
  | wdt | tx | flashRead | startApp => cases h

theorem isTx_of_isMutation {e : Event} (h : isMutation e = true) : isTx e = false := by
  cases e with
  | flashErase | flashWriteRow => rfl
  | wdt | tx | flashRead | startApp => cases h

/-- Nothing that reads and sends moves the flash record or the mode. -/
theorem Emits.of_isReadOrTx {s t : State} {es : List Event} (hes : ∀ e ∈ es, isReadOrTx e = true)
    (htrace : t.trace = s.trace ++ es) (hframe : SameButSums s t)
    (hrecord : t.flash = s.flash ∧ t.inputs = s.inputs ∧ t.elapsed = s.elapsed) : Emits s t es := by
  obtain ⟨hcfg, hboot, hrx, hlen, hbuf⟩ := hframe
  obtain ⟨hflash, hinputs, helapsed⟩ := hrecord
  have hnone : es.any isStartApp = false :=
    List.any_eq_false.2 fun e he => by simp [isStartApp_of_isReadOrTx (hes e he)]
  refine ⟨⟨htrace, ?_, by simp [hnone, hboot], hcfg⟩, hrx, hlen, hbuf, hinputs, helapsed⟩
  rw [flashAfterEvents_of_no_mutation fun e he => isMutation_of_isReadOrTx (hes e he), hflash]

theorem isReadOrTx_of_mem_map_tx {bytes : List Byte} :
    ∀ e ∈ bytes.map Event.tx, isReadOrTx e = true := by
  simp [isReadOrTx]

theorem emits_afterReply (cmd : Byte) (args : List Byte) (s : State) :
    Emits s (afterReply cmd args s) ((frame cmd args).map Event.tx) :=
  .of_isReadOrTx isReadOrTx_of_mem_map_tx rfl ⟨rfl, rfl, rfl, rfl, rfl⟩ ⟨rfl, rfl, rfl⟩

/-- The events of reading at each address of a list. -/
def readEvents (as : List Word) (s : State) : List Event :=
  (as.zip (flashReadAll as s).1).map (fun p => Event.flashRead p.1 p.2)

theorem isReadOrTx_of_mem_readEvents {as : List Word} {s : State} :
    ∀ e ∈ readEvents as s, isReadOrTx e = true := by
  simp only [readEvents, List.forall_mem_map]
  exact fun _ _ => rfl

theorem isTx_of_mem_readEvents {as : List Word} {s : State} :
    ∀ e ∈ readEvents as s, isTx e = false := by
  simp only [readEvents, List.forall_mem_map]
  exact fun _ _ => rfl

theorem emits_flashReadAll (as : List Word) (s : State) :
    Emits s (flashReadAll as s).2 (readEvents as s) := by
  obtain ⟨-, ⟨n, h⟩, -⟩ := flashReadAll_spec as s
  rw [h]
  exact .of_isReadOrTx isReadOrTx_of_mem_readEvents rfl ⟨rfl, rfl, rfl, rfl, rfl⟩ ⟨rfl, rfl, rfl⟩

theorem emits_flashErase (A : Word) (s : State) : Emits s (flashErase A s) [.flashErase A] :=
  ⟨⟨rfl, rfl, rfl, rfl⟩, rfl, rfl, rfl, rfl, rfl⟩

theorem emits_flashWriteRow (A : Word) (ws : List Word) (s : State) :
    Emits s (flashWriteRow A ws s) [.flashWriteRow A ws] :=
  ⟨⟨rfl, rfl, rfl, rfl⟩, rfl, rfl, rfl, rfl, rfl⟩

theorem emits_flashWriteRows (rows : List (Word × List Word)) (s : State) :
    Emits s (flashWriteRows rows s) (rows.map (fun r => Event.flashWriteRow r.1 r.2)) := by
  induction rows generalizing s with
  | nil => exact .refl s
  | cons r rows ih => exact (emits_flashWriteRow r.1 r.2 s).trans (ih (flashWriteRow r.1 r.2 s))

theorem emits_handOver (s : State) :
    Emits s (handOver s) [.startApp s.cfg.applicationStart] :=
  ⟨⟨rfl, rfl, rfl, rfl⟩, rfl, rfl, rfl, rfl, rfl⟩

end Sys2Proof.Machine
end

section
/-! The ten read commands (R157): reads, then one reply with the command's own byte. The eight information
commands read nothing, and what they reply stands in the parameters. -/

namespace Sys2Proof.Machine

theorem exec_readPlatform (s : State) :
    exec .readPlatform s = .next (afterReply 0x00#8 (s.cfg.platformString ++ [0x00#8]) s) :=
  next_encodeReply _ _ s

theorem exec_readVersion (s : State) :
    exec .readVersion s = .next (afterReply 0x01#8 (s.cfg.versionString ++ [0x00#8]) s) :=
  next_encodeReply _ _ s

theorem exec_readRowLen (s : State) :
    exec .readRowLen s = .next (afterReply 0x02#8 (le16 (BitVec.ofNat 16 s.cfg.rowWords)) s) :=
  next_encodeReply _ _ s

theorem exec_readPageLen (s : State) :
    exec .readPageLen s = .next (afterReply 0x03#8 (le16 (BitVec.ofNat 16 s.cfg.pageWords)) s) :=
  next_encodeReply _ _ s

theorem exec_readMaxProgSize (s : State) :
    exec .readMaxProgSize s = .next (afterReply 0x05#8 (le16 (BitVec.ofNat 16 s.cfg.maxWords)) s) :=
  next_encodeReply _ _ s

theorem exec_readAddr (A : Word) (s : State) :
    exec (.readAddr A) s = .next (afterReply 0x20#8 (le32 (flashAnswer s A)) (flashRead A s)) :=
  next_encodeReply _ _ _

theorem exec_readMax (A : Word) (s : State) :
    exec (.readMax A) s =
      .next (afterReply 0x21#8 (bytesOf (flashReadAll (readMaxAddrs s.cfg A) s).1)
        (flashReadAll (readMaxAddrs s.cfg A) s).2) :=
  next_encodeReply _ _ _

/-- Settles O20: each of the two commands is one reply, whose state O11 gives. -/
theorem stringCommandsReply : Obligations.StringCommandsReply :=
  fun s => ⟨exec_readPlatform s, exec_readVersion s⟩

/-- The two bytes of a 16-bit number as remainder and quotient. -/
theorem le16_ofNat {n : Nat} (h : n ≤ 0xFFFF) :
    le16 (BitVec.ofNat 16 n) = [BitVec.ofNat 8 (n % 256), BitVec.ofNat 8 (n / 256)] := by
  have hn : u16 (BitVec.ofNat 8 (n % 256)) (BitVec.ofNat 8 (n / 256)) = n := by
    simp only [u16, BitVec.toNat_ofNat]
    omega
  rw [← le16_u16, hn]

/-- Settles O21: the replies by O11, their bytes by `le16_ofNat`; R9 keeps the three numbers in 16 bits. -/
theorem geometryCommandsReply16Bits : Obligations.GeometryCommandsReply16Bits := by
  intro s hc
  obtain ⟨-, -, -, -, -, -, -, hrow, hpage, hmax, -⟩ := hc
  rw [← le16_ofNat hrow, ← le16_ofNat hpage, ← le16_ofNat hmax]
  exact ⟨exec_readRowLen s, exec_readPageLen s, exec_readMaxProgSize s⟩

/-- The reply arguments of an information command (R158 to R165); no other command has any here. -/
def infoArgs (c : Config) : Instr → List Byte
  | .readPlatform => c.platformString ++ [0x00#8]
  | .readVersion => c.versionString ++ [0x00#8]
  | .readRowLen => le16 (BitVec.ofNat 16 c.rowWords)
  | .readPageLen => le16 (BitVec.ofNat 16 c.pageWords)
  | .readProgLen => le32 c.progLength
  | .readMaxProgSize => le16 (BitVec.ofNat 16 c.maxWords)
  | .readAppStartAddr => le32 c.applicationStart
  | .readBootStartAddr => le32 c.bootloaderStart
  | _ => []

theorem exec_info {i : Instr} (hi : isInfo i = true) (s : State) :
    exec i s = .next (afterReply i.cmd (infoArgs s.cfg i) s) := by
  cases i with
  | readPlatform => exact exec_readPlatform s
  | readVersion => exact exec_readVersion s
  | readRowLen => exact exec_readRowLen s
  | readPageLen => exact exec_readPageLen s
  | readProgLen => exact exec_readProgLen s
  | readMaxProgSize => exact exec_readMaxProgSize s
  | readAppStartAddr => exact exec_readAppStartAddr s
  | readBootStartAddr => exact exec_readBootStartAddr s
  | erasePage | readAddr | readMax | writeRow | writeMax | startApp => cases hi

/-- Settles O23: the reply arguments `infoArgs` are a function of the parameters alone. -/
theorem infoRepliesAreIdempotent : Obligations.InfoRepliesAreIdempotent := by
  rintro i hi c
  refine ⟨infoArgs c i, ?_⟩
  rintro s rfl
  exact ⟨_, exec_info hi s, rfl, ⟨rfl, rfl, rfl, rfl, rfl⟩, rfl⟩

/-- Every read command is reads and then one reply with its own command byte. -/
theorem exec_read {i : Instr} (hi : isRead i = true) (s : State) :
    ∃ as args, exec i s = .next (afterReply i.cmd args (flashReadAll as s).2) := by
  cases i with
  | readAddr A => exact ⟨[A], _, exec_readAddr A s⟩
  | readMax A => exact ⟨readMaxAddrs s.cfg A, _, exec_readMax A s⟩
  | erasePage | writeRow | writeMax | startApp => cases hi
  | _ => exact ⟨[], _, exec_info rfl s⟩

theorem exec_read_emits {i : Instr} (hi : isRead i = true) (s : State) :
    ∃ t as args, exec i s = .next t ∧
      Emits s t (readEvents as s ++ (frame i.cmd args).map Event.tx) := by
  obtain ⟨as, args, h⟩ := exec_read hi s
  exact ⟨_, as, args, h, (emits_flashReadAll as s).trans (emits_afterReply i.cmd args _)⟩

theorem Emits.flash_of_isReadOrTx {s t : State} {es : List Event} (h : Emits s t es)
    (hes : ∀ e ∈ es, isReadOrTx e = true) : t.flash = s.flash := by
  rw [h.flash, flashAfterEvents_of_no_mutation fun e he => isMutation_of_isReadOrTx (hes e he)]

theorem isReadOrTx_of_mem_reads_and_reply {as : List Word} {s : State} {bytes : List Byte} :
    ∀ e ∈ readEvents as s ++ bytes.map Event.tx, isReadOrTx e = true :=
  List.forall_mem_append.2 ⟨isReadOrTx_of_mem_readEvents, isReadOrTx_of_mem_map_tx⟩

theorem countP_eq_zero_of_forall {p : Event → Bool} {es : List Event} (h : ∀ e ∈ es, p e = false) :
    es.countP p = 0 :=
  List.countP_eq_zero.2 fun e he => by simp [h e he]

/-- Settles O39: a read command is `exec_read`'s reads and reply, and neither kind of event mutates. -/
theorem readCommandsReplyOnceAndMutateNothing : Obligations.ReadCommandsReplyOnceAndMutateNothing := by
  intro i s hi
  obtain ⟨t, as, args, ht, hemits⟩ := exec_read_emits hi s
  refine ⟨t, readEvents as s, args, ht, by rw [hemits.trace, List.append_assoc],
    countP_eq_zero_of_forall isTx_of_mem_readEvents, countP_eq_zero_of_forall fun e he => ?_,
    countP_eq_zero_of_forall fun e he => ?_,
    hemits.flash_of_isReadOrTx isReadOrTx_of_mem_reads_and_reply⟩
  · exact isMutation_of_isReadOrTx (isReadOrTx_of_mem_readEvents e he)
  · exact isStartApp_of_isReadOrTx (isReadOrTx_of_mem_readEvents e he)

/-- Settles O25: the word sent is the read's answer, the known word where there is one. -/
theorem readAddrEffect : Obligations.ReadAddrEffect := by
  intro A s
  exact ⟨flashAnswer s A, _, exec_readAddr A s, rfl, fun w hw => flashAnswer_of_known hw, ⟨rfl, rfl⟩,
    ⟨rfl, rfl, rfl, rfl, rfl⟩, rfl, rfl, rfl⟩

theorem readMaxAddrs_getElem? {c : Config} {A : Word} {i : Nat} (h : i < c.maxWords) :
    (readMaxAddrs c A)[i]? = some (BitVec.ofNat 32 (A.toNat + i * c.wordStep)) := by
  simp [readMaxAddrs, wordAddr, h]

/-- The reads of `CMD_READ_MAX` by their number. -/
theorem readEvents_readMaxAddrs (A : Word) (s : State) :
    readEvents (readMaxAddrs s.cfg A) s =
      (List.range s.cfg.maxWords).map (fun i =>
        Event.flashRead (BitVec.ofNat 32 (A.toNat + i * s.cfg.wordStep))
          ((flashReadAll (readMaxAddrs s.cfg A) s).1.getD i 0#32)) := by
  obtain ⟨hlength, -, -⟩ := flashReadAll_spec (readMaxAddrs s.cfg A) s
  have hcount : (readMaxAddrs s.cfg A).length = s.cfg.maxWords := by simp [readMaxAddrs]
  refine List.ext_getElem (by simp [readEvents, hlength, hcount]) fun i _ hi => ?_
  have hlt : i < (flashReadAll (readMaxAddrs s.cfg A) s).1.length := by
    rw [hlength, hcount]
    simpa using hi
  rw [List.getElem_map, List.getElem_range, List.getD_eq_getElem _ _ hlt]
  simp [readEvents, readMaxAddrs, wordAddr]

/-- Settles O26: what the reads do is `flashReadAll_spec`, their addresses are `readMaxAddrs`, and the reply
carries their answers. -/
theorem readMaxEffect : Obligations.ReadMaxEffect := by
  intro A s
  obtain ⟨hlength, -, hknown⟩ := flashReadAll_spec (readMaxAddrs s.cfg A) s
  have hreads := emits_flashReadAll (readMaxAddrs s.cfg A) s
  refine ⟨(flashReadAll (readMaxAddrs s.cfg A) s).1, _, exec_readMax A s,
    by simpa [readMaxAddrs] using hlength, ?_, fun i hi w hw => ?_, ⟨rfl, rfl⟩, ?_, ?_,
    hreads.inputs, hreads.elapsed⟩
  · rw [← readEvents_readMaxAddrs, ← hreads.trace]
    rfl
  · simp [List.getD, hknown i _ w (readMaxAddrs_getElem? hi) hw]
  · exact hreads.sameButSums fun e he => isStartApp_of_isReadOrTx (isReadOrTx_of_mem_readEvents e he)
  · exact hreads.flash_of_isReadOrTx isReadOrTx_of_mem_readEvents

end Sys2Proof.Machine
end

section
/-! The operands of the memory commands: the guard as numbers, address sums, the forced stub and the rows of a
block. -/

namespace Sys2Proof.Machine

/-- Settles O30: `inGuard_iff` and `writeRefused_iff`, whose `≤` and `<` compare the words as numbers. -/
theorem guardComparesUnsigned : Obligations.GuardComparesUnsigned := by
  intro c a
  refine ⟨inGuard_iff c a, decide_eq_true_iff, Iff.rfl, ?_⟩
  rw [writeRefused, Bool.or_eq_true]

/-- Settles O31: a word made of a number is the number modulo `2^32`. -/
theorem addressSumsWrap : Obligations.AddressSumsWrap :=
  fun _ _ _ => ⟨BitVec.toNat_ofNat _ _, BitVec.toNat_ofNat _ _⟩

theorem forceStub_of_ne_zero {c : Config} {ra : Word} (ws : List Word) (h : ra ≠ 0#32) :
    forceStub c ra ws = ws :=
  if_neg h

theorem forceStub_zero (c : Config) (ws : List Word) :
    forceStub c 0#32 ws = [c.stubWord0, c.stubWord1] ++ ws.drop 2 :=
  if_pos rfl

/-- Settles O29: the two rules of `ForceStub` and that it keeps the number of words. -/
theorem forceStubReplacesTwoWords : Obligations.ForceStubReplacesTwoWords := by
  intro c ra ws hlength
  refine ⟨forceStub_length hlength, forceStub_of_ne_zero ws, ?_⟩
  rintro rfl
  rw [forceStub_zero]
  refine ⟨rfl, rfl, fun j hj => ?_⟩
  obtain ⟨n, rfl⟩ := Nat.exists_eq_add_of_le hj
  simp [Nat.add_comm 2 n]

theorem rowWordsAt_getElem? (c : Config) (words : List Word) (k i : Nat) :
    (rowWordsAt c words k)[i]? =
      if i < c.rowWords then words[k * c.rowWords + i]? else none := by
  rw [rowWordsAt, List.getElem?_take, List.getElem?_drop]

end Sys2Proof.Machine
end

section
/-! The four mutating commands (R157): one rule for each command that is not turned away, and what they have in
common. They only erase and write, reply nothing, and every event of theirs is safe (R190, R191). -/

namespace Sys2Proof.Machine

theorem exec_erasePage_of_allowed {A : Word} {s : State} (h : eraseRefused s.cfg A = false)
    (hz : inZeroPage s.cfg A = false) : exec (.erasePage A) s = .next (flashErase A s) := by
  simp [exec, execErasePage, h, hz]

theorem exec_erasePage_of_zero_page {A : Word} {s : State} (h : eraseRefused s.cfg A = false)
    (hz : inZeroPage s.cfg A = true) :
    exec (.erasePage A) s = .next (flashWriteRow 0#32 (stubRow s.cfg) (flashErase A s)) := by
  simp [exec, execErasePage, h, hz]

theorem exec_writeMax_of_allowed {A : Word} {words : List Word} {s : State}
    (h : ∀ k < s.cfg.maxRows, writeRefused s.cfg (rowAddr s.cfg A k) = false) :
    exec (.writeMax A words) s = .next (flashWriteRows (writeMaxRows s.cfg A words) s) := by
  refine if_neg fun hany => ?_
  obtain ⟨k, hk, hrefused⟩ := List.any_eq_true.1 hany
  simp [h k (List.mem_range.1 hk)] at hrefused

theorem exec_writeMax_cases (A : Word) (words : List Word) (s : State) :
    exec (.writeMax A words) s = .next s ∨
    (∀ k < s.cfg.maxRows, writeRefused s.cfg (rowAddr s.cfg A k) = false) ∧
      exec (.writeMax A words) s = .next (flashWriteRows (writeMaxRows s.cfg A words) s) := by
  by_cases h : ∃ k < s.cfg.maxRows, writeRefused s.cfg (rowAddr s.cfg A k) = true
  · obtain ⟨k, hk, hrefused⟩ := h
    exact .inl (exec_writeMax_of_refused_row hk hrefused)
  · have hallowed : ∀ k < s.cfg.maxRows, writeRefused s.cfg (rowAddr s.cfg A k) = false := by
      simpa using h
    exact .inr ⟨hallowed, exec_writeMax_of_allowed hallowed⟩

theorem eraseRefused_iff (c : Config) (A : Word) :
    eraseRefused c A = true ↔ c.bootloaderStart ≤ A ∧ A < c.applicationStart :=
  inGuard_iff c A

theorem inZeroPage_iff (c : Config) (A : Word) : inZeroPage c A = true ↔ A.toNat < c.pageSpan :=
  decide_eq_true_iff

/-- Settles O24: R63's guard and the zero page decide between the three rules of the command. -/
theorem erasePageEffect : Obligations.ErasePageEffect := by
  intro A s
  rw [← eraseRefused_iff, ← inZeroPage_iff, ← Nat.not_lt, ← inZeroPage_iff]
  simp only [Bool.not_eq_true]
  refine ⟨exec_erasePage_of_refused, fun h hz => ?_, fun h hz => ?_⟩
  · exact ⟨_, exec_erasePage_of_allowed h hz, rfl, ⟨rfl, rfl, rfl, rfl, rfl⟩, rfl, rfl⟩
  · refine ⟨_, exec_erasePage_of_zero_page h hz, ?_, ⟨rfl, rfl, rfl, rfl, rfl⟩, rfl, rfl⟩
    simp [stubRow]

/-- The events of a block write, row by row. -/
theorem writeMaxRows_events (c : Config) (A : Word) (words : List Word) :
    (writeMaxRows c A words).map (fun r => Event.flashWriteRow r.1 r.2) =
      (List.range c.maxRows).map (fun k => Event.flashWriteRow (rowAddr c A k)
        (forceStub c (rowAddr c A k) (rowWordsAt c words k))) := by
  simp [writeMaxRows]

/-- Settles O28: any refused row turns the block away; otherwise its rows are written one by one. -/
theorem writeMaxEffect : Obligations.WriteMaxEffect := by
  refine fun A words s => ⟨fun ⟨k, hk, hrefused⟩ => exec_writeMax_of_refused_row hk hrefused,
    fun hallowed => ⟨_, exec_writeMax_of_allowed hallowed, ?_, ?_⟩, rowWordsAt_getElem? s.cfg words⟩
  · rw [(emits_flashWriteRows _ s).trace, writeMaxRows_events]
  · rw [flashWriteRows_spec]
    exact ⟨⟨rfl, rfl, rfl, rfl, rfl⟩, rfl, rfl⟩

theorem safeEvent_forceStub {c : Config} {A : Word} {ws : List Word} (hc : c.WellFormed)
    (hlength : ws.length = c.rowWords) (hallowed : writeRefused c A = false) :
    SafeEvent c (.flashWriteRow A (forceStub c A ws)) := by
  obtain ⟨-, -, hrow, -⟩ := hc
  refine ⟨(forceStub_length (by rwa [hlength])).trans hlength, ?_, fun h => by simp [hallowed] at h⟩
  rintro rfl
  rw [forceStub_zero]
  rfl

theorem safeEvent_stubRow {c : Config} (hc : c.WellFormed) :
    SafeEvent c (.flashWriteRow 0#32 (stubRow c)) := by
  obtain ⟨-, -, hrow, -⟩ := hc
  exact ⟨stubRow_length hrow, fun _ => rfl, fun _ => ⟨rfl, rfl⟩⟩

/-- Every event of a row is safe where the block is allowed (R189). -/
theorem safeEvent_writeMaxRows {c : Config} {A : Word} {words : List Word} (hc : c.WellFormed)
    (hlength : words.length = c.maxWords)
    (hallowed : ∀ k < c.maxRows, writeRefused c (rowAddr c A k) = false) :
    ∀ e ∈ (writeMaxRows c A words).map (fun r => Event.flashWriteRow r.1 r.2), SafeEvent c e := by
  rw [writeMaxRows_events, List.forall_mem_map]
  intro k hk
  have hlt := List.mem_range.1 hk
  exact safeEvent_forceStub hc (rowWordsAt_length hlength hlt) (hallowed k hlt)

/-- What a mutating command other than the hand-over does: erases and row writes, all of them safe where the
command is well formed, and the sums kept. -/
structure Mutates (i : Instr) (s t : State) (es : List Event) : Prop where
  emits : Emits s t es
  mutation : ∀ e ∈ es, isMutation e = true
  sums : t.sum1 = s.sum1 ∧ t.sum2 = s.sum2
  safe : s.cfg.WellFormed → i.wellFormed s.cfg = true → ∀ e ∈ es, SafeEvent s.cfg e

theorem Mutates.refl (i : Instr) (s : State) : Mutates i s s [] where
  emits := .refl s
  mutation := List.forall_mem_nil _
  sums := ⟨rfl, rfl⟩
  safe := fun _ _ => List.forall_mem_nil _

theorem exec_erasePage_mutates (A : Word) (s : State) :
    ∃ t es, exec (.erasePage A) s = .next t ∧ Mutates (.erasePage A) s t es := by
  cases h : eraseRefused s.cfg A with
  | true => exact ⟨s, [], exec_erasePage_of_refused h, .refl _ s⟩
  | false =>
    cases hz : inZeroPage s.cfg A with
    | true =>
      exact ⟨_, _, exec_erasePage_of_zero_page h hz,
        (emits_flashErase A s).trans (emits_flashWriteRow _ _ _), by simp [isMutation], ⟨rfl, rfl⟩,
        fun hc _ => List.forall_mem_cons.2 ⟨h, List.forall_mem_singleton.2 (safeEvent_stubRow hc)⟩⟩
    | false =>
      exact ⟨_, _, exec_erasePage_of_allowed h hz, emits_flashErase A s, by simp [isMutation],
        ⟨rfl, rfl⟩, fun _ _ => List.forall_mem_singleton.2 h⟩

theorem exec_writeRow_mutates (A : Word) (words : List Word) (s : State) :
    ∃ t es, exec (.writeRow A words) s = .next t ∧ Mutates (.writeRow A words) s t es := by
  cases h : writeRefused s.cfg A with
  | true => exact ⟨s, [], exec_writeRow_of_refused h, .refl _ s⟩
  | false =>
    refine ⟨_, _, exec_writeRow_of_allowed (by simp [h]), emits_flashWriteRow _ _ _,
      by simp [isMutation], ⟨rfl, rfl⟩, fun hc hi => List.forall_mem_singleton.2 ?_⟩
    exact safeEvent_forceStub hc (beq_iff_eq.1 hi) h

theorem exec_writeMax_mutates (A : Word) (words : List Word) (s : State) :
    ∃ t es, exec (.writeMax A words) s = .next t ∧ Mutates (.writeMax A words) s t es := by
  obtain h | ⟨hallowed, h⟩ := exec_writeMax_cases A words s
  · exact ⟨s, [], h, .refl _ s⟩
  · refine ⟨_, _, h, emits_flashWriteRows _ s, ?_, ?_, fun hc hi => ?_⟩
    · exact List.forall_mem_map.2 fun _ _ => rfl
    · rw [flashWriteRows_spec]
      exact ⟨rfl, rfl⟩
    · exact safeEvent_writeMaxRows hc (beq_iff_eq.1 hi) hallowed

theorem exec_mutates {i : Instr} (hi : isRead i = false) (hne : i ≠ .startApp) (s : State) :
    ∃ t es, exec i s = .next t ∧ Mutates i s t es := by
  cases i with
  | erasePage A => exact exec_erasePage_mutates A s
  | writeRow A words => exact exec_writeRow_mutates A words s
  | writeMax A words => exact exec_writeMax_mutates A words s
  | startApp => exact absurd rfl hne
  | _ => cases hi

/-- Settles O38: the events of a mutating command are mutations or the one hand-over, and none is a byte sent.
-/
theorem mutatingCommandsNeverReply : Obligations.MutatingCommandsNeverReply := by
  intro i s hi
  by_cases hstart : i = .startApp
  · subst hstart
    exact ⟨_, _, exec_startApp s, handOver_trace s, rfl, rfl, rfl⟩
  · obtain ⟨t, es, ht, hm⟩ := exec_mutates hi hstart s
    exact ⟨t, es, ht, hm.emits.trace,
      countP_eq_zero_of_forall fun e he => isTx_of_isMutation (hm.mutation e he), hm.sums⟩

/-- Settles O43: the hand-over is these two updates. -/
theorem startAppEffect : Obligations.StartAppEffect := exec_startApp

end Sys2Proof.Machine
end

section
/-! Every command at once: its events contain no watchdog service, one hand-over for the start command and none
for another, and only safe ones. -/

namespace Sys2Proof.Machine

/-- What is true of the events of every command. -/
structure CommandEvents (c : Config) (i : Instr) (es : List Event) : Prop where
  wdt_notMem : Event.wdt ∉ es
  countP_isStartApp : es.countP isStartApp = if i = .startApp then 1 else 0
  safe : c.WellFormed → i.wellFormed c = true → ∀ e ∈ es, SafeEvent c e

/-- Reads, replies and mutations are the events of a command that does not hand over. -/
theorem CommandEvents.of_ne_startApp {c : Config} {i : Instr} {es : List Event} (hne : i ≠ .startApp)
    (hes : ∀ e ∈ es, isReadOrTx e = true ∨ isMutation e = true)
    (hsafe : c.WellFormed → i.wellFormed c = true → ∀ e ∈ es, SafeEvent c e) :
    CommandEvents c i es where
  wdt_notMem := fun h => by simpa [isReadOrTx, isMutation] using hes _ h
  countP_isStartApp := by
    rw [if_neg hne]
    exact countP_eq_zero_of_forall fun e he =>
      (hes e he).elim isStartApp_of_isReadOrTx isStartApp_of_isMutation
  safe := hsafe

theorem safeEvent_of_isReadOrTx {c : Config} {e : Event} (h : isReadOrTx e = true) : SafeEvent c e := by
  cases e with
  | tx | flashRead => trivial
  | wdt | flashErase | flashWriteRow | startApp => cases h

theorem exec_emits (i : Instr) (s : State) :
    ∃ t es, exec i s = .next t ∧ Emits s t es ∧ CommandEvents s.cfg i es := by
  by_cases hstart : i = .startApp
  · subst hstart
    exact ⟨_, _, exec_startApp s, emits_handOver s, by simp, rfl,
      fun _ _ => List.forall_mem_singleton.2 rfl⟩
  · cases hi : isRead i with
    | true =>
      obtain ⟨t, as, args, ht, hemits⟩ := exec_read_emits hi s
      have hes := isReadOrTx_of_mem_reads_and_reply (as := as) (s := s) (bytes := frame i.cmd args)
      exact ⟨t, _, ht, hemits, .of_ne_startApp hstart (fun e he => .inl (hes e he))
        fun _ _ e he => safeEvent_of_isReadOrTx (hes e he)⟩
    | false =>
      obtain ⟨t, es, ht, hm⟩ := exec_mutates hi hstart s
      exact ⟨t, es, ht, hm.emits, .of_ne_startApp hstart (fun e he => .inr (hm.mutation e he)) hm.safe⟩

/-- Settles O52: every command completes as `exec_emits` says, and only the start command hands over. -/
theorem commandsTouchOnlyTheirOwnState : Obligations.CommandsTouchOnlyTheirOwnState := by
  intro i s
  obtain ⟨t, es, ht, hemits, hevents⟩ := exec_emits i s
  refine ⟨t, es, ht, hemits.trace, hemits.cfg, hemits.rxState, hemits.rxLen, hemits.buf,
    hemits.inputs, hemits.elapsed, fun hne => ?_⟩
  have hnone : es.countP isStartApp = 0 := by rw [hevents.countP_isStartApp, if_neg hne]
  obtain ⟨-, hboot, -⟩ := hemits.sameButSums (by simpa using List.countP_eq_zero.1 hnone)
  exact ⟨hboot, hnone⟩

end Sys2Proof.Machine
end

section
/-! What one byte and one step add to the trace: nothing, or the events of the command whose frame the byte
completes, or the hand-over of the expired window; the watchdog service comes first (R200 to R205). -/

namespace Sys2Proof.Machine

/-- A byte that completes the frame of command `i`, and the events of `i`. -/
structure RunsCommand (s : State) (b : Byte) (i : Instr) (es : List Event) : Prop where
  rxState : s.rxState = .verbatim
  byte : b = endMarker
  decodes : ∃ m, completedMessage s = some m ∧ decode s.cfg m = .ok i
  events : CommandEvents s.cfg i es

theorem decodeStep_logs {b : Byte} {s t : State} (h : decodeStep b s = .next t) :
    ∃ es, Logs s t es ∧ (es = [] ∨ ∃ i, RunsCommand s b i es) := by
  obtain ⟨-, -, hu⟩ | ⟨-, -, hu⟩ | ⟨-, -, hu⟩ | ⟨-, -, -, hu⟩ | ⟨m, hrx, hb, hm, hu⟩ | ⟨d, -, hu⟩ :=
    decodeStep_cases b s
  case inr.inr.inr.inr.inl =>
    obtain ⟨e, -, hd⟩ | ⟨i, hi, hd⟩ := dispatch_cases m s
    · rw [hd, h, onNext_next] at hu
      obtain rfl := Host.Outcome.next.inj hu
      exact ⟨[], ⟨by simp, rfl, rfl, rfl⟩, .inl rfl⟩
    · obtain ⟨u, es, he, hemits, hevents⟩ := exec_emits i s
      rw [hd, he, h, onNext_next] at hu
      obtain rfl := Host.Outcome.next.inj hu
      exact ⟨es, ⟨hemits.trace, hemits.flash, hemits.bootState, hemits.cfg⟩,
        .inr ⟨i, hrx, hb, ⟨m, hm, hi⟩, hevents⟩⟩
  all_goals
    obtain rfl := Host.Outcome.next.inj (h.symm.trans hu)
    exact ⟨[], ⟨by simp, by simp [flashAfterEvents], by simp, by simp⟩, .inl rfl⟩

/-- Everything a step adds to the trace after its watchdog service. -/
theorem step_logs {s t : State} (h : step s = .next t) :
    s.cfg.WellFormed ∧ s.bootState = .listening ∧ ∃ es, Logs (sampled s) t es ∧
      (es = [] ∨
        (windowExpired s.cfg (s.elapsed + (nextInput s).tickAdvance) (nextInput s).abort = true ∧
          es = [.startApp s.cfg.applicationStart]) ∨
        ∃ b i, (nextInput s).rx = some b ∧ RunsCommand (sampled s) b i es) := by
  obtain ⟨hc, hb, ⟨hexpired, rfl⟩ | ⟨-, ⟨-, rfl⟩ | ⟨b, hrx, hbyte⟩⟩⟩ := step_cases h
  · exact ⟨hc, hb, _, (emits_handOver (sampled s)).toLogs, .inr (.inl ⟨hexpired, rfl⟩)⟩
  · exact ⟨hc, hb, [], (Emits.refl _).toLogs, .inl rfl⟩
  · obtain ⟨es, hlogs, hes | ⟨i, hruns⟩⟩ := decodeStep_logs hbyte
    · exact ⟨hc, hb, es, hlogs, .inl hes⟩
    · exact ⟨hc, hb, es, hlogs, .inr (.inr ⟨b, i, hrx, hruns⟩)⟩

/-- The events after the watchdog service are no other service, at most one hand-over, and safe. -/
theorem step_events {s t : State} (h : step s = .next t) :
    ∃ es, Logs (sampled s) t es ∧ Event.wdt ∉ es ∧ es.countP isStartApp ≤ 1 ∧
      ∀ e ∈ es, SafeEvent s.cfg e := by
  obtain ⟨hc, -, es, hlogs, rfl | ⟨-, rfl⟩ | ⟨b, i, -, -, -, ⟨m, -, hdecode⟩, hwdt, hcount, hsafe⟩⟩ :=
    step_logs h
  · exact ⟨[], hlogs, by simp, by simp, List.forall_mem_nil _⟩
  · exact ⟨_, hlogs, by simp, by simp [isStartApp], List.forall_mem_singleton.2 rfl⟩
  · refine ⟨es, hlogs, hwdt, ?_, hsafe hc (decodeAcceptsOnlyOwnMessage _ m i hdecode).1⟩
    rw [hcount]
    split <;> omega

/-- Settles O47: the service is in the sampled state, and the events after it hold no other. -/
theorem oneWatchdogServicePerStep : Obligations.OneWatchdogServicePerStep := by
  intro s t h
  obtain ⟨es, hlogs, hwdt, -⟩ := step_events h
  exact ⟨es, by rw [hlogs.trace, sampled_trace, List.append_assoc]; rfl, hwdt⟩

/-- Settles O59: the step adds the watchdog service and safe events. -/
theorem stepKeepsTraceSafe : Obligations.StepKeepsTraceSafe := by
  intro s t hs h
  obtain ⟨es, hlogs, -, -, hsafe⟩ := step_events h
  have hcfg : t.cfg = s.cfg := hlogs.cfg
  rw [SafeTrace, hcfg, hlogs.trace, sampled_trace]
  exact List.forall_mem_append.2
    ⟨List.forall_mem_append.2 ⟨hs, List.forall_mem_singleton.2 trivial⟩, hsafe⟩

/-- The mode after events that began in `Listening`. -/
theorem Logs.bootState_of_listening {s t : State} {es : List Event} (h : Logs s t es)
    (hb : s.bootState = .listening) :
    t.bootState = if 0 < es.countP isStartApp then .running else .listening := by
  simpa only [hb, List.any_eq_true, ← List.countP_pos_iff] using h.bootState

/-- Settles O60: the events of a step hold at most one hand-over, and with it the mode is `Running`. -/
theorem stepKeepsHandOverOnce : Obligations.StepKeepsHandOverOnce := by
  intro s t hs h
  obtain ⟨-, hb, -⟩ := step_cases h
  obtain ⟨es, hlogs, -, hcount, -⟩ := step_events h
  have hzero : s.trace.countP isStartApp = 0 := hs.trans (by simp [hb])
  have htrace : t.trace.countP isStartApp = es.countP isStartApp := by
    simp [hlogs.trace, hzero, isStartApp]
  rw [HandOverOnce, htrace, hlogs.bootState_of_listening hb]
  obtain hnone | hone : es.countP isStartApp = 0 ∨ es.countP isStartApp = 1 := by omega
  · simp [hnone]
  · simp [hone]

/-- Settles O46: a step that leaves `Listening` has handed over (`Logs.bootState`), so its window had expired or
its command was the start command, whose one message O4 gives. -/
theorem onlyExpiryOrStartCommandLeavesListening :
    Obligations.OnlyExpiryOrStartCommandLeavesListening := by
  intro s t h
  obtain ⟨-, hb, es, hlogs, hes⟩ := step_logs h
  refine ⟨hb, fun hrunning => ?_⟩
  have hpos : 0 < es.countP isStartApp := by
    by_contra hnone
    have hboot := hlogs.bootState_of_listening hb
    simp [hrunning, hnone] at hboot
  obtain rfl | ⟨hexpired, -⟩ | ⟨b, i, hbyte, hrx, rfl, ⟨m, hm, hdecode⟩, -, hcount, -⟩ := hes
  · simp at hpos
  · simpa [windowExpired] using Or.inl hexpired
  · have hstart : i = .startApp := by
      by_contra hne
      rw [hcount, if_neg hne] at hpos
      exact absurd hpos (lt_irrefl 0)
    have hmessage : m = Instr.startApp.message := by
      rw [(decodeAcceptsOnlyOwnMessage _ m i hdecode).2, hstart]
    exact .inr ⟨hbyte, hrx, hm.trans (congrArg some hmessage)⟩

/-- The events of a step are all that has happened to the flash record by its end (R67). -/
theorem step_flash {s t : State} {es : List Event} (h : Logs (sampled s) t es) :
    t.flash = flashAfterEvents s.cfg (.wdt :: es) s.flash :=
  h.flash

/-- Settles O55: a reset inside the step cuts its list of events (`cutShort_next`). -/
theorem resetInsideStepKeepsFlash : Obligations.ResetInsideStepKeepsFlash := by
  intro n s t h
  obtain ⟨-, -, es, hlogs, -⟩ := step_logs h
  have htrace : t.trace = s.trace ++ .wdt :: es := by
    rw [hlogs.trace, sampled_trace, List.append_assoc]
    rfl
  have hcut : resetInside n s = _ := (congrArg (cutShort n s) h).trans (cutShort_next n htrace)
  refine ⟨.wdt :: es, _, htrace, hcut, rfl, ?_, fun hn => ?_, ⟨rfl, rfl, rfl, rfl, rfl, rfl, rfl⟩, hlogs.cfg⟩
  · rintro rfl
    rfl
  · rw [List.take_of_length_le hn, step_flash hlogs]

/-- Settles O45: a listening step is a hand-over, a sampled state or the decoder on one byte, and that completes
(`decodeStep_completes_cfg`). -/
theorem listeningStepCompletes : Obligations.ListeningStepCompletes := by
  intro s hc hb
  rw [step_listening hc hb]
  split
  · exact ⟨_, rfl⟩
  · split
    · exact ⟨_, rfl⟩
    · obtain ⟨t, ht, -⟩ := decodeStep_completes_cfg _ (sampled s)
      exact ⟨t, ht⟩

theorem windowExpired_of_le_threshold {c : Config} {t : Nat} (abort : Bool)
    (h : t ≤ c.bootThreshold) : windowExpired c t abort = false := by
  simp [windowExpired, Nat.not_lt.2 h]

/-- Settles O42: inside the window the step is the rule for its byte or for none. -/
theorem openWindowTakesAtMostOneByte : Obligations.OpenWindowTakesAtMostOneByte := by
  intro s hc hb ht
  have hopen := windowExpired_of_le_threshold (nextInput s).abort ht
  refine ⟨fun hr => ?_, fun b hr => ?_⟩
  · exact ⟨_, step_of_no_byte hc hb hopen hr, rfl, ⟨⟨rfl, rfl, rfl, rfl, rfl⟩, rfl, rfl⟩, rfl⟩
  · exact ⟨_, step_of_byte hc hb hopen hr, rfl, ⟨⟨rfl, rfl, rfl, rfl, rfl⟩, rfl, rfl⟩, rfl, rfl, rfl⟩

/-- Settles O44: `loopStep` has no rule for `Running`. -/
theorem runningHasNoStep : Obligations.RunningHasNoStep := by
  intro s hc hb
  simp only [step, loopStep, if_pos hc, hb]

/-- Settles O48: `loopStep` checks the parameters before anything else. -/
theorem illFormedConfigurationRefused : Obligations.IllFormedConfigurationRefused :=
  fun _ hc => if_neg hc

/-- The end marker of a verified frame that decodes to `i` runs `i`. -/
theorem decodeStep_runs {s : State} {i : Instr} {m : List Byte} (hrx : s.rxState = .verbatim)
    (hm : completedMessage s = some m) (hi : decode s.cfg m = .ok i) :
    decodeStep endMarker s = onNext decoderIdle (exec i s) := by
  rw [decodeStep_endMarker hrx, complete_of_message hm, dispatch_of_decode_ok hi]

/-- Settles O50: an open window hands the byte to the decoder, and sampling moves none of its registers. -/
theorem stepRunsDecodedInstruction : Obligations.StepRunsDecodedInstruction := by
  intro s i m hc hb hopen hbyte hrx hm hi
  rw [step_of_byte hc hb hopen hbyte]
  exact decodeStep_runs hrx hm hi

end Sys2Proof.Machine
end

section
/-! The machine's invariant (R138): each operation keeps it, and reset starts with it. -/

namespace Sys2Proof.Machine

/-- Reset and an idle decoder ask for nothing of the buffer. -/
theorem decoderInv_of_rxLen_eq_zero {s : State} (h : s.rxLen = 0) : DecoderInv s := by
  simp [DecoderInv, h]

theorem inv_of_idle {s t : State} (hs : Inv s) (hcfg : t.cfg = s.cfg) (hlen : t.rxLen = 0)
    (hbuf : t.buf = s.buf) (hflash : t.flash = s.flash) : Inv t := by
  obtain ⟨hc, -, hmem⟩ := hs
  refine ⟨hcfg ▸ hc, decoderInv_of_rxLen_eq_zero hlen, ?_⟩
  rwa [MemoryInv, hbuf, hcfg, hflash]

theorem inv_emits {s t : State} {es : List Event} (hs : Inv s) (h : Emits s t es) : Inv t := by
  obtain ⟨hc, hdec, hbuf, hbufKeys, hflash, hflashKeys⟩ := hs
  obtain ⟨hwf, hkeys⟩ := flashAfterEvents_inv (c := s.cfg) es hflash hflashKeys
  refine ⟨h.cfg ▸ hc, ?_, ?_⟩
  · rwa [DecoderInv, h.cfg, h.rxLen, h.rxState, h.buf]
  · rw [MemoryInv, h.cfg, h.buf, h.flash]
    exact ⟨hbuf, hbufKeys, hwf, hkeys⟩

theorem inv_append {s : State} (d : Byte) (hs : Inv s) : Inv (append d s) := by
  obtain ⟨-, h⟩ | ⟨hroom, h⟩ := append_cases d s <;> rw [h]
  · exact inv_of_idle hs rfl rfl rfl rfl
  · obtain ⟨hc, ⟨hcap, -, hwritten⟩, hbuf, hbufKeys, hflash⟩ := hs
    have hlt : s.rxLen < s.cfg.rxCap := Nat.lt_of_le_of_ne hcap hroom
    refine ⟨hc, ⟨hlt, fun h => by simp at h, fun i hi => ?_⟩, Memory.wf_write _ _ hbuf,
      fun cell hcell => ?_, hflash⟩
    · obtain rfl | hne := Decidable.eq_or_ne i s.rxLen
      · rw [Memory.read_write_same]
        rfl
      · rw [Memory.read_write_other _ _ hne]
        exact hwritten i (Nat.lt_of_le_of_ne (Nat.le_of_lt_succ hi) hne)
    · obtain rfl | hcell := Memory.mem_write hcell
      · exact hlt
      · exact hbufKeys cell hcell

/-- Entering `Escaped` from inside a frame moves no other register. -/
theorem inv_escaped {s : State} (hs : Inv s) : Inv { s with rxState := .escaped } := by
  obtain ⟨hc, ⟨hcap, -, hwritten⟩, hmem⟩ := hs
  exact ⟨hc, ⟨hcap, fun h => by simp at h, hwritten⟩, hmem⟩

theorem inv_dispatch {m : List Byte} {s : State} (hs : Inv s) :
    ∃ t, dispatch m s = .next t ∧ Inv t := by
  obtain ⟨e, -, h⟩ | ⟨i, -, h⟩ := dispatch_cases m s
  · exact ⟨s, h, hs⟩
  · obtain ⟨t, es, ht, hemits, -⟩ := exec_emits i s
    exact ⟨t, h.trans ht, inv_emits hs hemits⟩

theorem inv_decodeStep {b : Byte} {s t : State} (hs : Inv s) (h : decodeStep b s = .next t) : Inv t := by
  obtain ⟨-, -, hu⟩ | ⟨-, -, hu⟩ | ⟨-, -, hu⟩ | ⟨-, -, -, hu⟩ | ⟨m, -, -, -, hu⟩ | ⟨d, -, hu⟩ :=
    decodeStep_cases b s
  case inr.inr.inr.inr.inl =>
    obtain ⟨u, hd, hinv⟩ := inv_dispatch (m := m) hs
    rw [hd, h, onNext_next] at hu
    obtain rfl := Host.Outcome.next.inj hu
    exact inv_of_idle hinv rfl rfl rfl rfl
  all_goals obtain rfl := Host.Outcome.next.inj (h.symm.trans hu)
  · exact inv_of_idle hs rfl rfl rfl rfl
  · exact hs
  · exact inv_escaped hs
  · exact inv_of_idle hs rfl rfl rfl rfl
  · exact inv_append d hs

/-- Settles O58: sampling moves nothing the invariant reads, a hand-over is an event, and a byte keeps it by
`inv_decodeStep`. -/
theorem stepKeepsInv : Obligations.StepKeepsInv := by
  intro s t hs h
  have hsampled : Inv (sampled s) := hs
  obtain ⟨-, -, ⟨-, rfl⟩ | ⟨-, ⟨-, rfl⟩ | ⟨b, -, hbyte⟩⟩⟩ := step_cases h
  · exact inv_emits hsampled (emits_handOver (sampled s))
  · exact hsampled
  · exact inv_decodeStep hsampled hbyte

theorem inv_resetWith {c : Config} (hc : c.WellFormed) : Inv (State.resetWith c) :=
  ⟨hc, decoderInv_of_rxLen_eq_zero rfl, Memory.wf_nil, List.forall_mem_nil _, Memory.wf_nil,
    List.forall_mem_nil _⟩

/-- Settles O57: memories and trace of `resetWith` are empty, its decoder idle; configuration T is legal. -/
theorem invAtReset : Obligations.InvAtReset := by
  have hall (c : Config) (hc : c.WellFormed) : Inv (State.resetWith c) ∧
      SafeTrace (State.resetWith c) ∧ HandOverOnce (State.resetWith c) :=
    ⟨inv_resetWith hc, List.forall_mem_nil _, rfl⟩
  exact ⟨hall, hall Config.vectorT (by decide +kernel)⟩

theorem inv_reboot {s : State} (hs : Inv s) : Inv (State.reboot s) := by
  obtain ⟨hc, -, -, -, hflash⟩ := hs
  exact ⟨hc, decoderInv_of_rxLen_eq_zero rfl, Memory.wf_nil, List.forall_mem_nil _, hflash⟩

/-- Settles O54: the field laws of `reboot`, and `inv_reboot`. -/
theorem rebootKeepsFlashAndParameters : Obligations.RebootKeepsFlashAndParameters :=
  fun _ => ⟨rfl, rfl, rfl, rfl, rfl, rfl, rfl, rfl, rfl, inv_reboot⟩

/-- Settles O53: `resetWith` field by field; its buffer lists nothing. -/
theorem resetLeavesIdleListeningBlock : Obligations.ResetLeavesIdleListeningBlock :=
  ⟨fun _ => ⟨rfl, rfl, rfl, rfl, fun _ => rfl, rfl, rfl, rfl⟩, rfl⟩

end Sys2Proof.Machine
end

section
/-! The decoder reads its own registers alone (R139). -/

namespace Sys2Proof.Machine

theorem append_sameDecoder {s s' : State} (d : Byte) (h : SameDecoder s s') :
    SameDecoder (append d s) (append d s') := by
  obtain ⟨hcap, hrx, hlen, hbuf⟩ := h
  by_cases hfull : s.rxLen = s.cfg.rxCap
  · rw [append_of_full d hfull, append_of_full d (by rw [hlen, hcap, hfull])]
    exact ⟨hcap, rfl, rfl, hbuf⟩
  · rw [append_of_room d hfull, append_of_room d (by rwa [hlen, hcap])]
    exact ⟨hcap, rfl, by simp only [hlen], by simp only [hlen, hbuf]⟩

/-- Whatever the dispatcher did, `Complete` leaves an idle decoder and the buffer as it was (R135). -/
theorem complete_completes (s : State) : ∃ t, complete s = .next t ∧ SameDecoder (decoderIdle s) t := by
  cases hm : completedMessage s with
  | none => exact ⟨_, complete_of_dropped hm, rfl, rfl, rfl, rfl⟩
  | some m =>
    rw [complete_of_message hm]
    obtain ⟨e, -, h⟩ | ⟨i, -, h⟩ := dispatch_cases m s
    · exact ⟨decoderIdle s, by rw [h, onNext_next], rfl, rfl, rfl, rfl⟩
    · obtain ⟨t, es, ht, hemits, -⟩ := exec_emits i s
      exact ⟨decoderIdle t, by rw [h, ht, onNext_next], congrArg Config.rxCap hemits.cfg, rfl, rfl,
        hemits.buf⟩

theorem complete_sameDecoder {s s' t t' : State} (hs : SameDecoder s s') (h : complete s = .next t)
    (h' : complete s' = .next t') : SameDecoder t t' := by
  obtain ⟨hcap, -, -, hbuf⟩ := hs
  obtain ⟨u, hu, hcapu, hrxu, hlenu, hbufu⟩ := complete_completes s
  obtain ⟨u', hu', hcapu', hrxu', hlenu', hbufu'⟩ := complete_completes s'
  obtain rfl := Host.Outcome.next.inj (h.symm.trans hu)
  obtain rfl := Host.Outcome.next.inj (h'.symm.trans hu')
  exact ⟨by rw [hcapu, hcapu']; exact hcap, by rw [hrxu, hrxu']; rfl, by rw [hlenu, hlenu']; rfl,
    by rw [hbufu, hbufu']; exact hbuf⟩

/-- One byte takes two decoders with the same registers to the same registers: by the decoder's state and
the byte (R127). -/
theorem decodeStep_sameDecoder {b : Byte} {s s' t t' : State} (hs : SameDecoder s s')
    (h : decodeStep b s = .next t) (h' : decodeStep b s' = .next t') : SameDecoder t t' := by
  have ⟨hcap, hrx, hlen, hbuf⟩ := hs
  cases hstate : s.rxState with
  | waitForStart =>
    rw [decodeStep_waitForStart b hstate] at h
    rw [decodeStep_waitForStart b (hrx.trans hstate)] at h'
    by_cases hb : b = startMarker
    · rw [if_pos hb] at h h'
      obtain rfl := Host.Outcome.next.inj h
      obtain rfl := Host.Outcome.next.inj h'
      exact ⟨hcap, rfl, rfl, hbuf⟩
    · rw [if_neg hb] at h h'
      obtain rfl := Host.Outcome.next.inj h
      obtain rfl := Host.Outcome.next.inj h'
      exact hs
  | verbatim =>
    rw [decodeStep_verbatim b hstate] at h
    rw [decodeStep_verbatim b (hrx.trans hstate)] at h'
    by_cases hesc : b = escMarker
    · rw [if_pos hesc] at h h'
      obtain rfl := Host.Outcome.next.inj h
      obtain rfl := Host.Outcome.next.inj h'
      exact ⟨hcap, rfl, hlen, hbuf⟩
    · rw [if_neg hesc] at h h'
      by_cases hend : b = endMarker
      · rw [if_pos hend] at h h'
        exact complete_sameDecoder hs h h'
      · rw [if_neg hend] at h h'
        obtain rfl := Host.Outcome.next.inj h
        obtain rfl := Host.Outcome.next.inj h'
        exact append_sameDecoder b hs
  | escaped =>
    rw [decodeStep_escaped b hstate] at h
    rw [decodeStep_escaped b (hrx.trans hstate)] at h'
    obtain rfl := Host.Outcome.next.inj h
    obtain rfl := Host.Outcome.next.inj h'
    exact append_sameDecoder _ hs

/-- Settles O19: the registers by `decodeStep_sameDecoder`; the message handed over is made of them alone. -/
theorem decoderDependsOnItsRegistersOnly : Obligations.DecoderDependsOnItsRegistersOnly := by
  intro b s s' t t' hs h h'
  refine ⟨decodeStep_sameDecoder hs h h', ?_⟩
  obtain ⟨-, hrx, hlen, hbuf⟩ := hs
  rw [dispatchedMessage, dispatchedMessage, hrx, completedMessage_congr hbuf hlen]

end Sys2Proof.Machine
end

section
/-! Bytes delivered one per step, with the abort signal held (R200, R207): up to the end marker the steps do to
the decoder what the bytes do, and to the rest one watchdog service and one tick answer each. -/

namespace Sys2Proof.Machine

/-- The state once `n` listening steps have passed, each with `dt` ticks and its one answer, that have moved no
other register: their watchdog services, the ticks, and the answers that are left. -/
def afterSteps (n dt : Nat) (rest : List StepInput) (s : State) : State :=
  { s with
    trace := s.trace ++ List.replicate n .wdt
    inputs := rest
    elapsed := s.elapsed + n * dt }

theorem afterSteps_zero {dt : Nat} {rest : List StepInput} {s : State} (h : s.inputs = rest) :
    afterSteps 0 dt rest s = s := by
  simp [afterSteps, ← h]

theorem afterSteps_afterSteps (m n dt : Nat) (rest rest' : List StepInput) (s : State) :
    afterSteps n dt rest (afterSteps m dt rest' s) = afterSteps (m + n) dt rest s := by
  simp [afterSteps, Nat.add_mul, Nat.add_assoc]

theorem sampled_of_delivery {b : Byte} {dt : Nat} {rest : List StepInput} {s : State}
    (h : s.inputs = ⟨dt, true, some b⟩ :: rest) : sampled s = afterSteps 1 dt rest s := by
  simp [sampled, takeInput, nextInput, emit, afterSteps, h]

/-- A step with a delivered byte is the decoder on that byte. -/
theorem step_of_delivery {b : Byte} {dt : Nat} {rest : List StepInput} {s : State}
    (hc : s.cfg.WellFormed) (hb : s.bootState = .listening)
    (h : s.inputs = ⟨dt, true, some b⟩ :: rest) :
    step s = decodeStep b (afterSteps 1 dt rest s) := by
  have hnext : nextInput s = ⟨dt, true, some b⟩ := by simp [nextInput, h]
  rw [step_of_byte (b := b) hc hb (by rw [hnext, windowExpired_of_abort]) (by rw [hnext]),
    sampled_of_delivery h]

theorem append_afterSteps (d : Byte) (n dt : Nat) (rest : List StepInput) (s : State) :
    append d (afterSteps n dt rest s) = afterSteps n dt rest (append d s) := by
  by_cases h : s.rxLen = s.cfg.rxCap
  · rw [append_of_full d h, append_of_full d (s := afterSteps n dt rest s) h]
    rfl
  · rw [append_of_room d h, append_of_room d (s := afterSteps n dt rest s) h]
    rfl

/-- A byte that is no end marker moves the decoder's registers alone, and looks at no others. -/
theorem decodeStep_afterSteps {b : Byte} (hne : b ≠ endMarker) (n dt : Nat) (rest : List StepInput)
    {s t : State} (h : decodeStep b s = .next t) :
    decodeStep b (afterSteps n dt rest s) = .next (afterSteps n dt rest t) ∧
      t.cfg = s.cfg ∧ t.bootState = s.bootState := by
  obtain ⟨hrx, rfl, hu⟩ | ⟨hrx, hb, hu⟩ | ⟨hrx, rfl, hu⟩ | ⟨-, hb, -, -⟩ | ⟨-, -, hb, -, -⟩ |
    ⟨d, hd, hu⟩ := decodeStep_cases b s
  case inr.inr.inr.inl | inr.inr.inr.inr.inl => exact absurd hb hne
  all_goals obtain rfl := Host.Outcome.next.inj (h.symm.trans hu)
  · exact ⟨(decodeStep_waitForStart (s := afterSteps n dt rest s) _ hrx).trans (if_pos rfl), rfl, rfl⟩
  · exact ⟨(decodeStep_waitForStart (s := afterSteps n dt rest _) _ hrx).trans (if_neg hb), rfl, rfl⟩
  · exact ⟨(decodeStep_verbatim (s := afterSteps n dt rest s) _ hrx).trans (if_pos rfl), rfl, rfl⟩
  · refine ⟨?_, append_cfg d s, append_bootState d s⟩
    rw [← append_afterSteps]
    obtain ⟨hrx, hesc, hend, rfl⟩ | ⟨hrx, rfl⟩ := hd
    · exact decodeStep_data hrx hesc hend
    · exact decodeStep_escaped b hrx

theorem decodeRun_afterSteps {bytes : List Byte} (hend : endMarker ∉ bytes) (n dt : Nat)
    (rest : List StepInput) {s t : State} (h : decodeRun bytes s = .next t) :
    decodeRun bytes (afterSteps n dt rest s) = .next (afterSteps n dt rest t) := by
  induction bytes generalizing s with
  | nil =>
    obtain rfl := Host.Outcome.next.inj h
    rfl
  | cons b bytes ih =>
    obtain ⟨hne, hends⟩ := not_or.1 (List.mem_cons.not.1 hend)
    cases hb : s.bootState with
    | running =>
      obtain rfl := Host.Outcome.next.inj ((decodeRun_of_running _ hb).symm.trans h)
      exact decodeRun_of_running _ hb
    | listening =>
      obtain ⟨u, hu, -⟩ := decodeStep_completes_cfg b s
      rw [decodeRun_cons hb hu] at h
      rw [decodeRun_cons (by exact hb) (decodeStep_afterSteps (Ne.symm hne) n dt rest hu).1]
      exact ih hends h

theorem run_succ_of_step {M : Host.Core} {n : Nat} {s t : M.State} (h : M.step s = .next t) :
    M.run (n + 1) s = M.run n t := by
  simp only [Host.Core.run, h]

theorem run_one {M : Host.Core} (s : M.State) : M.run 1 s = M.step s := by
  simp only [Host.Core.run]
  cases M.step s <;> rfl

/-- A run of the machine in two parts. -/
theorem run_add {M : Host.Core} {m n : Nat} {s t : M.State} (h : M.run m s = .next t) :
    M.run (m + n) s = M.run n t := by
  induction m generalizing s with
  | zero =>
    obtain rfl := Host.Outcome.next.inj h
    rw [Nat.zero_add]
  | succ m ih =>
    rw [Nat.succ_add]
    cases hs : M.step s with
    | next u =>
      rw [run_succ_of_step hs] at h ⊢
      exact ih h
    | fault r => simp [Host.Core.run, hs] at h
    | refused r => simp [Host.Core.run, hs] at h

/-- Steps that deliver bytes other than the end marker are the decoder's run of them. -/
theorem run_delivery {bytes : List Byte} (hend : endMarker ∉ bytes) {dt : Nat}
    {rest : List StepInput} {s t : State} (hc : s.cfg.WellFormed) (hb : s.bootState = .listening)
    (hinputs : s.inputs = delivery dt bytes ++ rest) (h : decodeRun bytes s = .next t) :
    Host.Core.run Sys2Proof.core bytes.length s = .next (afterSteps bytes.length dt rest t) := by
  induction bytes generalizing s t with
  | nil =>
    obtain rfl := Host.Outcome.next.inj h
    exact congrArg _ (afterSteps_zero hinputs).symm
  | cons b bytes ih =>
    obtain ⟨hne, hends⟩ := not_or.1 (List.mem_cons.not.1 hend)
    obtain ⟨u, hu, -⟩ := decodeStep_completes_cfg b s
    rw [decodeRun_cons hb hu] at h
    obtain ⟨hbyte, hcfg, hboot⟩ :=
      decodeStep_afterSteps (Ne.symm hne) 1 dt (delivery dt bytes ++ rest) hu
    have hstep : Sys2Proof.core.step s = .next (afterSteps 1 dt (delivery dt bytes ++ rest) u) :=
      (step_of_delivery hc hb hinputs).trans hbyte
    refine (run_succ_of_step hstep).trans ?_
    rw [List.length_cons, Nat.add_comm, ← afterSteps_afterSteps 1 _ dt rest (delivery dt bytes ++ rest)]
    exact ih hends (hcfg.symm ▸ hc) (hboot.trans hb) rfl (decodeRun_afterSteps hends _ _ _ h)

/-- The block when the end marker of a delivered frame is the next answer: the body received, and one step
passed for each byte before it. -/
theorem run_delivery_frame {cmd : Byte} {args : List Byte} {dt : Nat} {rest : List StepInput}
    {s : State} (hc : s.cfg.WellFormed) (hb : s.bootState = .listening)
    (hrx : s.rxState = .waitForStart) (hcap : 5 + args.length ≤ s.cfg.rxCap)
    (hinputs : s.inputs = delivery dt (frame cmd args) ++ rest) :
    Host.Core.run Sys2Proof.core (frame cmd args).length s =
      decodeStep endMarker
        (afterSteps (frame cmd args).length dt rest (afterBody (frameBody cmd args) s)) := by
  have hend : endMarker ∉ startMarker :: (frameBody cmd args).flatMap escape :=
    List.not_mem_cons_of_ne_of_not_mem (by decide) (endMarker_notMem_flatMap_escape _)
  have hlength : (frame cmd args).length =
      (startMarker :: (frameBody cmd args).flatMap escape).length + 1 := List.length_append
  have hdelivery : s.inputs = delivery dt (startMarker :: (frameBody cmd args).flatMap escape) ++
      (⟨dt, true, some endMarker⟩ :: rest) := by
    rw [hinputs]
    simp [delivery, frame]
  have hbody := run_delivery hend hc hb hdelivery (decodeRun_start_frameBody hb hrx hcap)
  rw [hlength, ← afterSteps_afterSteps _ 1 dt rest (⟨dt, true, some endMarker⟩ :: rest)]
  exact ((run_add hbody).trans (run_one _)).trans (step_of_delivery (by exact hc) (by exact hb) (by rfl))

/-- Settles O51: the frame but for its end marker fills the buffer (`run_delivery`), and the step that takes the
end marker runs the instruction its message decodes to. -/
theorem deliveredFrameRunsItsInstruction : Obligations.DeliveredFrameRunsItsInstruction := by
  intro s i dt rest hc hi hfits hb hrx hinputs
  have hrun := run_delivery_frame hc hb hrx (body_fits hc i hi) hinputs
  have hmessage : completedMessage (afterSteps (encode i).length dt rest
      (afterBody (frameBody i.cmd i.args) s)) = some i.message :=
    (completedMessage_congr rfl rfl).trans (completedMessage_afterBody_frameBody i.cmd i.args s)
  obtain ⟨t, -, ht, -⟩ := exec_emits i
    (afterSteps (encode i).length dt rest (afterBody (frameBody i.cmd i.args) s))
  refine ⟨afterSteps (encode i).length dt rest (afterBody (frameBody i.cmd i.args) s), t, rfl, hb, rfl,
    rfl, rfl, rfl, rfl, rfl, rfl, ht, ?_⟩
  have hend := decodeStep_runs rfl hmessage (decode_instr_message hi hfits)
  exact (hrun.trans hend).trans (congrArg (onNext decoderIdle) ht)

end Sys2Proof.Machine
end

section
/-! What the flash record says once a block of words has been written over it (R66, assumption 4), and how such
blocks combine: one block after another, and a block over the start of another. -/

namespace Sys2Proof.Machine

/-- Two blocks one after the other share addresses with a word where one of them does. -/
theorem sharesAddress_add (k l a la lb : Nat) :
    SharesAddress k l a (la + lb) ↔ SharesAddress k l a la ∨ SharesAddress k l (a + la) lb := by
  constructor
  · rintro ⟨x, hx, y, hy, h⟩
    by_cases hlt : y < la
    · exact .inl ⟨x, hx, y, hlt, h⟩
    · exact .inr ⟨x, hx, y - la, by omega, by rw [h]; congr 1; omega⟩
  · rintro (⟨x, hx, y, hy, h⟩ | ⟨x, hx, y, hy, h⟩)
    · exact ⟨x, hx, y, by omega, h⟩
    · exact ⟨x, hx, la + y, by omega, by rw [h, Nat.add_assoc]⟩

/-- Two ranges that together do not go all the way round have no address in common. -/
theorem not_sharesAddress_of_disjoint {a p l q n : Nat} (h : p + l ≤ q ∧ q + n ≤ 2 ^ 32 ∨
    q + n ≤ p ∧ p + l ≤ 2 ^ 32) : ¬ SharesAddress ((a + p) % 2 ^ 32) l (a + q) n := by
  rintro ⟨x, hx, y, hy, heq⟩
  omega

/-- The record `m'` is `m` with the words `ws` written as the block at `base`: word `i` is at `(base + i *
WORD_STEP) mod 2^32`, a word beside them that shares an address with the block is unknown, every other is as in
`m`. -/
structure HoldsBlock (c : Config) (base : Nat) (ws : List Word) (m m' : Memory Word) : Prop where
  word : ∀ i < ws.length, Memory.read m' ((base + i * c.wordStep) % 2 ^ 32) = ws[i]?
  shared : ∀ k, (∀ i < ws.length, k ≠ (base + i * c.wordStep) % 2 ^ 32) →
    SharesAddress k c.wordStep base (ws.length * c.wordStep) → Memory.read m' k = none
  apart : ∀ k, ¬ SharesAddress k c.wordStep base (ws.length * c.wordStep) →
    Memory.read m' k = Memory.read m k

/-- A word of a block shares its first address with it. -/
theorem sharesAddress_word {step base n i : Nat} (hstep : 0 < step) (hi : i < n) :
    SharesAddress ((base + i * step) % 2 ^ 32) step base (n * step) :=
  ⟨0, hstep, i * step, Nat.mul_lt_mul_of_pos_right hi hstep, by rw [Nat.add_zero, Nat.mod_mod]⟩

theorem HoldsBlock.nil (c : Config) (base : Nat) (m : Memory Word) : HoldsBlock c base [] m m where
  word := fun i hi => absurd hi (Nat.not_lt_zero i)
  shared := fun k _ h => by simp [SharesAddress] at h
  apart := fun _ _ => rfl

/-- A store of a block that does not go all the way round (`flashStore_spec`). -/
theorem holdsBlock_flashStore {c : Config} {base : Nat} {ws : List Word} (m : Memory Word)
    (hstep : 0 < c.wordStep) (hne : 0 < ws.length) (hfit : ws.length * c.wordStep ≤ 2 ^ 32) :
    HoldsBlock c base ws m (flashStore c base ws m) := by
  obtain ⟨hword, hother⟩ := flashStore_spec (a := base) m hstep hfit
  have hmeets (k : Nat) : wordMeets c base (ws.length * c.wordStep) k = true ↔ _ :=
    wordMeets_iff hstep (Nat.mul_pos hne hstep)
  refine ⟨hword, fun k hk hshares => ?_, fun k happart => ?_⟩
  · rw [hother k hk, if_pos ((hmeets k).2 hshares)]
  · have hk : ∀ i < ws.length, k ≠ (base + i * c.wordStep) % 2 ^ 32 := by
      rintro i hi rfl
      exact happart (sharesAddress_word hstep hi)
    rw [hother k hk, if_neg (mt (hmeets k).1 happart)]

/-- A block is where its base is modulo `2^32`. -/
theorem HoldsBlock.of_mod {c : Config} {base : Nat} {ws : List Word} {m m' : Memory Word}
    (h : HoldsBlock c (base % 2 ^ 32) ws m m') : HoldsBlock c base ws m m' := by
  have hmod (x : Nat) : (base % 2 ^ 32 + x) % 2 ^ 32 = (base + x) % 2 ^ 32 := Nat.mod_add_mod ..
  obtain ⟨hword, hshared, happart⟩ := h
  simp only [SharesAddress, hmod] at hword hshared happart
  exact ⟨hword, hshared, happart⟩

/-- One block after another is one block. -/
theorem HoldsBlock.append {c : Config} {base : Nat} {ws vs : List Word} {m m' m'' : Memory Word}
    (h : HoldsBlock c base ws m m') (h' : HoldsBlock c (base + ws.length * c.wordStep) vs m' m'')
    (hfit : (ws.length + vs.length) * c.wordStep ≤ 2 ^ 32) : HoldsBlock c base (ws ++ vs) m m'' := by
  have hshares (k : Nat) := sharesAddress_add k c.wordStep base (ws.length * c.wordStep)
    (vs.length * c.wordStep)
  rw [Nat.add_mul] at hfit
  constructor <;> simp only [List.length_append, Nat.add_mul, hshares]
  · intro i hi
    by_cases hlt : i < ws.length
    · have hle := Nat.mul_le_mul_right c.wordStep (Nat.succ_le_of_lt hlt)
      rw [Nat.succ_mul] at hle
      rw [List.getElem?_append_left hlt, h'.apart _ (not_sharesAddress_of_disjoint (by omega)),
        h.word i hlt]
    · obtain ⟨j, rfl⟩ := Nat.exists_eq_add_of_le (Nat.not_lt.1 hlt)
      rw [List.getElem?_append_right (Nat.le_add_right _ _), Nat.add_sub_cancel_left, Nat.add_mul,
        ← Nat.add_assoc, h'.word j (by omega)]
  · intro k hk hor
    have hws (i : Nat) (hi : i < ws.length) := hk i (by omega)
    have hvs (j : Nat) (hj : j < vs.length) :
        k ≠ (base + ws.length * c.wordStep + j * c.wordStep) % 2 ^ 32 := by
      have := hk (ws.length + j) (by omega)
      rwa [Nat.add_mul, ← Nat.add_assoc] at this
    by_cases hsv : SharesAddress k c.wordStep (base + ws.length * c.wordStep) (vs.length * c.wordStep)
    · exact h'.shared k hvs hsv
    · rw [h'.apart k hsv]
      exact h.shared k hws (hor.resolve_right hsv)
  · intro k hnone
    obtain ⟨hsw, hsv⟩ := not_or.1 hnone
    rw [h'.apart k hsv, h.apart k hsw]

/-- A block over the start of another leaves the rest of that. -/
theorem HoldsBlock.overwrite {c : Config} {base : Nat} {ws us vs : List Word} {m m' m'' : Memory Word}
    (h : HoldsBlock c base (ws ++ vs) m m') (h' : HoldsBlock c base us m' m'')
    (hlength : us.length = ws.length) (hfit : (ws.length + vs.length) * c.wordStep ≤ 2 ^ 32) :
    HoldsBlock c base (us ++ vs) m m'' := by
  obtain ⟨hword, hshared, happart⟩ := h
  have hshares (k : Nat) := sharesAddress_add k c.wordStep base (ws.length * c.wordStep)
    (vs.length * c.wordStep)
  rw [Nat.add_mul] at hfit
  rw [List.length_append] at hword hshared happart
  obtain ⟨hword', hshared', happart'⟩ := h'
  constructor <;> rw [List.length_append, hlength]
  all_goals rw [hlength] at hword' hshared' happart'
  · intro i hi
    by_cases hlt : i < ws.length
    · rw [hword' i hlt, List.getElem?_append_left (by omega)]
    · have hle := Nat.mul_le_mul_right c.wordStep (Nat.not_lt.1 hlt)
      have hle' := Nat.mul_le_mul_right c.wordStep (Nat.succ_le_of_lt hi)
      rw [Nat.succ_mul, Nat.add_mul] at hle'
      have hdisjoint := not_sharesAddress_of_disjoint (a := base) (p := i * c.wordStep)
        (l := c.wordStep) (q := 0) (n := ws.length * c.wordStep) (by omega)
      rw [happart' _ hdisjoint, hword i hi, List.getElem?_append_right (by omega),
        List.getElem?_append_right (by omega), hlength]
  · intro k hk hor
    by_cases hsw : SharesAddress k c.wordStep base (ws.length * c.wordStep)
    · exact hshared' k (fun i hi => hk i (by omega)) hsw
    · rw [happart' k hsw, hshared k hk hor]
  · intro k hnone
    have hsw : ¬ SharesAddress k c.wordStep base (ws.length * c.wordStep) := fun hs =>
      hnone (by rw [Nat.add_mul, hshares]; exact .inl hs)
    rw [happart' k hsw, happart k hnone]

/-- A block in the record by the words that a read of the flash answers. -/
theorem HoldsBlock.flashKnown {c : Config} {base i : Nat} {ws : List Word} {m : Memory Word}
    {t : State} (h : HoldsBlock c base ws m t.flash) (hi : i < ws.length) :
    flashKnown t (BitVec.ofNat 32 (base + i * c.wordStep)) = ws[i]? :=
  (congrArg (Memory.read t.flash) (BitVec.toNat_ofNat _ _)).trans (h.word i hi)

theorem HoldsBlock.otherWordsKept {s t : State} {base : Nat} {ws : List Word}
    (h : HoldsBlock s.cfg base ws s.flash t.flash) : OtherWordsKept s t base ws.length :=
  fun a ha => ⟨h.apart a.toNat, h.shared a.toNat ha⟩

end Sys2Proof.Machine
end

section
/-! Read-back after one erase or one row write (R66), with the sizes that R9 gives. -/

namespace Sys2Proof.Machine

/-- The sizes of a legal parameter set: rows, pages and maximum blocks are not empty and do not go all the way
round the address space, and a maximum block is whole rows. -/
structure Sizes (c : Config) : Prop where
  step_pos : 0 < c.wordStep
  two_le_rowWords : 2 ≤ c.rowWords
  rowWords_le_pageWords : c.rowWords ≤ c.pageWords
  maxRows_pos : 0 < c.maxRows
  maxRows_mul : c.maxRows * c.rowWords = c.maxWords
  row_fits : c.rowWords * c.wordStep ≤ 2 ^ 32
  page_fits : c.pageWords * c.wordStep ≤ 2 ^ 32
  max_fits : c.maxWords * c.wordStep ≤ 2 ^ 32

theorem sizes_of_wellFormed {c : Config} (hc : c.WellFormed) : Sizes c := by
  obtain ⟨-, hstep, hrow, -, hpage, hmod, hmax, -, -, -, -, -, -, -, hpageSpan, hblock, -⟩ := hc
  have hmul : c.maxRows * c.rowWords = c.maxWords := Nat.div_mul_cancel (Nat.dvd_of_mod_eq_zero hmod)
  have hmaxFits : c.maxWords * c.wordStep ≤ 2 ^ 32 := by
    rw [← hmul, Nat.mul_assoc]
    exact hblock.le
  exact ⟨hstep, hrow, hpage, Nat.div_pos hmax (by omega), hmul,
    (Nat.mul_le_mul_right _ hmax).trans hmaxFits, hpageSpan.le, hmaxFits⟩

theorem Sizes.rowSpan_pos {c : Config} (h : Sizes c) : 0 < c.rowSpan :=
  Nat.mul_pos (Nat.lt_of_lt_of_le Nat.two_pos h.two_le_rowWords) h.step_pos

/-- A row write at a row boundary stores its words. -/
theorem holdsBlock_writeRow {c : Config} (hsizes : Sizes c) {A : Word} {ws : List Word}
    (m : Memory Word) (hlength : ws.length = c.rowWords) (halign : A.toNat % c.rowSpan = 0) :
    HoldsBlock c A.toNat ws m (flashAfterWriteRow c A ws m) := by
  have hpos := hsizes.two_le_rowWords
  rw [flashAfterWriteRow, if_pos halign]
  exact holdsBlock_flashStore m hsizes.step_pos (by omega) (hlength ▸ hsizes.row_fits)

theorem holdsBlock_erase {c : Config} (hsizes : Sizes c) (A : Word) (m : Memory Word) :
    HoldsBlock c (pageBase c A) (List.replicate c.pageWords c.erasedWord) m (flashAfterErase c A m) := by
  have hrow := hsizes.two_le_rowWords
  have hpage := hsizes.rowWords_le_pageWords
  exact holdsBlock_flashStore m hsizes.step_pos (by rw [List.length_replicate]; omega)
    (by rw [List.length_replicate]; exact hsizes.page_fits)

/-- Settles O33: the row is a block in the record (`holdsBlock_writeRow`). -/
theorem writeRowReadsBack : Obligations.WriteRowReadsBack := by
  intro A words s hc hlength hallowed halign
  have hsizes := sizes_of_wellFormed hc
  have hforced : (forceStub s.cfg A words).length = s.cfg.rowWords :=
    (forceStub_length (hlength ▸ hsizes.two_le_rowWords)).trans hlength
  have hblock : HoldsBlock s.cfg A.toNat (forceStub s.cfg A words) s.flash
      (flashWriteRow A (forceStub s.cfg A words) s).flash :=
    holdsBlock_writeRow hsizes s.flash hforced halign
  refine ⟨_, exec_writeRow_of_allowed (by simp [hallowed]), fun i hi => ?_, ?_, rfl, rfl, rfl⟩
  · exact hblock.flashKnown (by rwa [hforced])
  · exact hforced ▸ hblock.otherWordsKept

theorem rowMayTouch_iff {c : Config} (hsizes : Sizes c) (A : Word) (k : Nat) :
    rowMayTouch c A k = true ↔
      SharesAddress k c.wordStep (A.toNat / c.rowSpan * c.rowSpan) (2 * c.rowSpan) :=
  wordMeets_iff hsizes.step_pos (Nat.mul_pos Nat.two_pos hsizes.rowSpan_pos)

/-- A row write away from a row boundary forgets the two rows it might touch (U6). -/
theorem read_flashAfterWriteRow_unaligned {c : Config} {A : Word} (ws : List Word) (m : Memory Word)
    (halign : A.toNat % c.rowSpan ≠ 0) (k : Nat) :
    Memory.read (flashAfterWriteRow c A ws m) k =
      if rowMayTouch c A k = true then none else Memory.read m k := by
  rw [flashAfterWriteRow, if_neg halign, Memory.read_forget]

/-- Settles O34: the two rows are `rowMayTouch`, which the record forgets. -/
theorem unalignedWriteRowLeavesWordsOpen : Obligations.UnalignedWriteRowLeavesWordsOpen := by
  intro A words s hc hallowed halign
  have htouch (a : Word) := rowMayTouch_iff (sizes_of_wellFormed hc) A a.toNat
  have hread (a : Word) : flashKnown (flashWriteRow A (forceStub s.cfg A words) s) a = _ :=
    read_flashAfterWriteRow_unaligned (forceStub s.cfg A words) s.flash halign a.toNat
  refine ⟨_, exec_writeRow_of_allowed (by simp [hallowed]), fun a ha => ?_, fun a ha => ?_, rfl, rfl,
    rfl⟩
  · rw [hread, if_pos ((htouch a).2 ha)]
  · rw [hread, if_neg (mt (htouch a).1 ha)]
    rfl

/-- A row write leaves alone every word apart from the two rows it might touch, aligned or not. -/
theorem read_flashAfterWriteRow_apart {c : Config} (hsizes : Sizes c) {A : Word} {ws : List Word}
    (m : Memory Word) (hlength : ws.length = c.rowWords) {k : Nat}
    (happart : ¬ SharesAddress k c.wordStep (A.toNat / c.rowSpan * c.rowSpan) (2 * c.rowSpan)) :
    Memory.read (flashAfterWriteRow c A ws m) k = Memory.read m k := by
  by_cases halign : A.toNat % c.rowSpan = 0
  · refine (holdsBlock_writeRow hsizes m hlength halign).apart k ?_
    rw [Nat.div_mul_cancel (Nat.dvd_of_mod_eq_zero halign), Nat.two_mul, sharesAddress_add, not_or]
      at happart
    rw [hlength]
    exact happart.1
  · rw [read_flashAfterWriteRow_unaligned ws m halign, if_neg (mt (rowMayTouch_iff hsizes A k).1 happart)]

/-- The events of a block of rows, each `ROW_WORDS` long, leave alone what none of them might touch. -/
theorem read_flashAfterEvents_rows_apart {c : Config} (hsizes : Sizes c)
    {rows : List (Word × List Word)} (m : Memory Word) {k : Nat}
    (hrows : ∀ r ∈ rows, r.2.length = c.rowWords ∧
      ¬ SharesAddress k c.wordStep (r.1.toNat / c.rowSpan * c.rowSpan) (2 * c.rowSpan)) :
    Memory.read (flashAfterEvents c (rows.map (fun r => Event.flashWriteRow r.1 r.2)) m) k =
      Memory.read m k := by
  induction rows generalizing m with
  | nil => rfl
  | cons r rows ih =>
    obtain ⟨⟨hlength, happart⟩, hrest⟩ := List.forall_mem_cons.1 hrows
    exact (ih _ hrest).trans (read_flashAfterWriteRow_apart hsizes m hlength happart)

/-- Row `k` of a maximum block as it is written: the stub forced in the row at address 0 (R186, R188). -/
def forcedRow (c : Config) (A : Word) (words : List Word) (k : Nat) : List Word :=
  forceStub c (rowAddr c A k) (rowWordsAt c words k)

theorem forcedRow_length {c : Config} (hsizes : Sizes c) {A : Word} {words : List Word} {k : Nat}
    (hlength : words.length = c.maxWords) (hk : k < c.maxRows) :
    (forcedRow c A words k).length = c.rowWords := by
  have hrow := rowWordsAt_length hlength hk
  exact (forceStub_length (hrow ▸ hsizes.two_le_rowWords)).trans hrow

/-- Settles O36: an executed block is its rows' events, and each leaves the word alone. -/
theorem writeMaxLeavesOtherRowsAlone : Obligations.WriteMaxLeavesOtherRowsAlone := by
  intro A words s hc hlength
  obtain h | ⟨-, h⟩ := exec_writeMax_cases A words s
  · exact ⟨s, h, fun _ _ => rfl, rfl, rfl, rfl⟩
  · have hsizes := sizes_of_wellFormed hc
    have hemits := emits_flashWriteRows (writeMaxRows s.cfg A words) s
    refine ⟨_, h, fun a happart => ?_, hemits.inputs, hemits.elapsed, by rw [flashWriteRows_spec]⟩
    rw [flashKnown, hemits.flash]
    refine read_flashAfterEvents_rows_apart hsizes s.flash ?_
    rw [writeMaxRows, List.forall_mem_map]
    intro k hk
    have hlt := List.mem_range.1 hk
    exact ⟨forcedRow_length hsizes hlength hlt, happart k hlt⟩

end Sys2Proof.Machine
end

section
/-! Read-back after an erase (R66): outside the zero page the erased page is one block; in it the stub row lies
over its start (R183). -/

namespace Sys2Proof.Machine

theorem pageBase_of_zero_page {c : Config} {A : Word} (h : A.toNat < c.pageSpan) : pageBase c A = 0 := by
  rw [pageBase, Nat.div_eq_of_lt h, Nat.zero_mul]

theorem holdsBlock_erase_zero_page {c : Config} (hsizes : Sizes c) {A : Word} (m : Memory Word)
    (hz : A.toNat < c.pageSpan) :
    HoldsBlock c (pageBase c A) (stubRow c ++ List.replicate (c.pageWords - c.rowWords) c.erasedWord)
      m (flashAfterWriteRow c 0#32 (stubRow c) (flashAfterErase c A m)) := by
  have hpage : c.rowWords + (c.pageWords - c.rowWords) = c.pageWords :=
    Nat.add_sub_cancel' hsizes.rowWords_le_pageWords
  have herase := holdsBlock_erase hsizes A m
  rw [← hpage, List.replicate_add] at herase
  have hstub := stubRow_length hsizes.two_le_rowWords
  have hrow := holdsBlock_writeRow hsizes (A := 0#32) (flashAfterErase c A m) hstub (Nat.zero_mod _)
  rw [pageBase_of_zero_page hz] at herase ⊢
  refine herase.overwrite hrow (by rw [hstub, List.length_replicate]) ?_
  rw [List.length_replicate, List.length_replicate, hpage]
  exact hsizes.page_fits

/-- The words of an erased zero page: the stub's two and then erased ones. -/
theorem stubRow_append_replicate {c : Config} (hsizes : Sizes c) :
    stubRow c ++ List.replicate (c.pageWords - c.rowWords) c.erasedWord =
      c.stubWord0 :: c.stubWord1 :: List.replicate (c.pageWords - 2) c.erasedWord := by
  have hrow := hsizes.two_le_rowWords
  have hpage := hsizes.rowWords_le_pageWords
  rw [stubRow, List.append_assoc, List.replicate_append_replicate,
    show c.rowWords - 2 + (c.pageWords - c.rowWords) = c.pageWords - 2 by omega]
  rfl

/-- Settles O37: by R183's two rules for an executed erase, each a block of `PAGE_WORDS` words in the record. -/
theorem erasePageReadsBack : Obligations.ErasePageReadsBack := by
  intro A s hc hallowed
  have hsizes := sizes_of_wellFormed hc
  by_cases hz : A.toNat < s.cfg.pageSpan
  · have hblock : HoldsBlock s.cfg (pageBase s.cfg A) _ s.flash
        (flashWriteRow 0#32 (stubRow s.cfg) (flashErase A s)).flash :=
      holdsBlock_erase_zero_page hsizes s.flash hz
    rw [stubRow_append_replicate hsizes] at hblock
    have hlength : (s.cfg.stubWord0 :: s.cfg.stubWord1 ::
        List.replicate (s.cfg.pageWords - 2) s.cfg.erasedWord).length = s.cfg.pageWords := by
      have hrow := hsizes.two_le_rowWords
      have hpage := hsizes.rowWords_le_pageWords
      simp
      omega
    refine ⟨_, exec_erasePage_of_zero_page hallowed ((inZeroPage_iff _ _).2 hz), fun i hi => ?_,
      hlength ▸ hblock.otherWordsKept, rfl, rfl, rfl⟩
    rw [hblock.flashKnown (by rwa [hlength])]
    match i with
    | 0 => simp [hz]
    | 1 => simp [hz]
    | j + 2 =>
      have hj : j < s.cfg.pageWords - 2 := by omega
      simp [hj]
  · have hblock : HoldsBlock s.cfg (pageBase s.cfg A) _ s.flash (flashErase A s).flash :=
      holdsBlock_erase hsizes A s.flash
    have hzero : inZeroPage s.cfg A = false := by simpa [inZeroPage] using hz
    refine ⟨_, exec_erasePage_of_allowed hallowed hzero, fun i hi => ?_,
      by simpa using hblock.otherWordsKept, rfl, rfl, rfl⟩
    rw [hblock.flashKnown (by simpa using hi)]
    simp [hz, hi]

end Sys2Proof.Machine
end

section
/-! Read-back after a maximum block at row boundaries, whole or cut short by a reset: its first `n` rows are one
block in the record (R189, R248, R252). -/

namespace Sys2Proof.Machine

/-- The first `n` row writes of a block, and the words they write. -/
def rowEvents (c : Config) (A : Word) (words : List Word) (n : Nat) : List Event :=
  (List.range n).map (fun k => Event.flashWriteRow (rowAddr c A k) (forcedRow c A words k))

def rowsWords (c : Config) (A : Word) (words : List Word) (n : Nat) : List Word :=
  (List.range n).flatMap (forcedRow c A words)

theorem rowsWords_succ (c : Config) (A : Word) (words : List Word) (n : Nat) :
    rowsWords c A words (n + 1) = rowsWords c A words n ++ forcedRow c A words n := by
  simp [rowsWords, List.range_succ]

theorem rowsWords_length {c : Config} (hsizes : Sizes c) {A : Word} {words : List Word}
    (hlength : words.length = c.maxWords) {n : Nat} (hn : n ≤ c.maxRows) :
    (rowsWords c A words n).length = n * c.rowWords := by
  induction n with
  | zero => simp [rowsWords]
  | succ n ih =>
    rw [rowsWords_succ, List.length_append, ih (by omega), forcedRow_length hsizes hlength hn,
      Nat.succ_mul]

/-- Word `i` of row `k` in the list of all of them. -/
theorem rowsWords_getElem? {c : Config} (hsizes : Sizes c) {A : Word} {words : List Word}
    (hlength : words.length = c.maxWords) {n k i : Nat} (hn : n ≤ c.maxRows) (hk : k < n)
    (hi : i < c.rowWords) :
    (rowsWords c A words n)[k * c.rowWords + i]? = (forcedRow c A words k)[i]? := by
  induction n with
  | zero => exact absurd hk (Nat.not_lt_zero k)
  | succ n ih =>
    have hbefore := rowsWords_length (A := A) hsizes hlength (n := n) (by omega)
    rw [rowsWords_succ]
    obtain hlt | rfl := Nat.lt_or_eq_of_le (Nat.le_of_lt_succ hk)
    · have hle := Nat.mul_le_mul_right c.rowWords (Nat.succ_le_of_lt hlt)
      rw [Nat.succ_mul] at hle
      rw [List.getElem?_append_left (by omega), ih (by omega) hlt]
    · rw [List.getElem?_append_right (by omega), hbefore, Nat.add_sub_cancel_left]

/-- The first `n` rows of a block, each at a row boundary, are one block in the record. -/
theorem holdsBlock_rowEvents {c : Config} (hsizes : Sizes c) {A : Word} {words : List Word}
    (m : Memory Word) (hlength : words.length = c.maxWords)
    (halign : ∀ k < c.maxRows, (rowAddr c A k).toNat % c.rowSpan = 0) {n : Nat}
    (hn : n ≤ c.maxRows) :
    HoldsBlock c A.toNat (rowsWords c A words n) m
      (flashAfterEvents c (rowEvents c A words n) m) := by
  induction n with
  | zero => exact .nil c A.toNat m
  | succ n ih =>
    have hrow := forcedRow_length (A := A) hsizes hlength hn
    have hrows := rowsWords_length (A := A) hsizes hlength (n := n) (by omega)
    have hwrite := holdsBlock_writeRow hsizes (flashAfterEvents c (rowEvents c A words n) m) hrow
      (halign n hn)
    have hbase : (rowAddr c A n).toNat =
        (A.toNat + (rowsWords c A words n).length * c.wordStep) % 2 ^ 32 := by
      rw [rowAddr, BitVec.toNat_ofNat, Config.rowSpan, hrows, Nat.mul_assoc]
    rw [hbase] at hwrite
    have hevents : rowEvents c A words (n + 1) =
        rowEvents c A words n ++ [.flashWriteRow (rowAddr c A n) (forcedRow c A words n)] := by
      simp [rowEvents, List.range_succ]
    rw [rowsWords_succ, hevents, flashAfterEvents_append]
    refine (ih (by omega)).append hwrite.of_mod ?_
    have hle := Nat.mul_le_mul_right c.rowWords hn
    rw [hsizes.maxRows_mul, Nat.succ_mul] at hle
    rw [hrows, hrow]
    exact (Nat.mul_le_mul_right _ hle).trans hsizes.max_fits

/-- The address of word `i` of row `k` as a word of the whole block. -/
theorem wordAddr_rowAddr (c : Config) (A : Word) (k i : Nat) :
    wordAddr c (rowAddr c A k) i = BitVec.ofNat 32 (A.toNat + (k * c.rowWords + i) * c.wordStep) := by
  apply BitVec.eq_of_toNat_eq
  simp only [wordAddr, rowAddr, BitVec.toNat_ofNat, Config.rowSpan]
  rw [Nat.mod_add_mod, Nat.add_assoc, Nat.add_mul, Nat.mul_assoc]

/-- A word of one of the first `n` rows reads back. -/
theorem flashKnown_row_written {c : Config} (hsizes : Sizes c) {A : Word} {words : List Word}
    {m : Memory Word} {t : State} (hlength : words.length = c.maxWords) {n k i : Nat}
    (hn : n ≤ c.maxRows) (h : HoldsBlock c A.toNat (rowsWords c A words n) m t.flash) (hk : k < n)
    (hi : i < c.rowWords) :
    flashKnown t (wordAddr c (rowAddr c A k) i) = (forcedRow c A words k)[i]? := by
  have hle := Nat.mul_le_mul_right c.rowWords (Nat.succ_le_of_lt hk)
  rw [Nat.succ_mul] at hle
  rw [wordAddr_rowAddr, ← rowsWords_getElem? hsizes hlength hn hk hi]
  exact h.flashKnown (by rw [rowsWords_length hsizes hlength hn]; omega)

/-- A word of a later row is as it was. -/
theorem flashKnown_row_unwritten {s t : State} (hsizes : Sizes s.cfg) {A : Word} {words : List Word}
    (hlength : words.length = s.cfg.maxWords) {n k i : Nat} (hk : k < s.cfg.maxRows) (hn : n ≤ k)
    (h : HoldsBlock s.cfg A.toNat (rowsWords s.cfg A words n) s.flash t.flash)
    (hi : i < s.cfg.rowWords) :
    flashKnown t (wordAddr s.cfg (rowAddr s.cfg A k) i) =
      flashKnown s (wordAddr s.cfg (rowAddr s.cfg A k) i) := by
  have hbefore : n * s.cfg.rowWords ≤ k * s.cfg.rowWords + i :=
    (Nat.mul_le_mul_right _ hn).trans (Nat.le_add_right _ _)
  have hinside : k * s.cfg.rowWords + i + 1 ≤ s.cfg.maxWords := by
    have hle := Nat.mul_le_mul_right s.cfg.rowWords (Nat.succ_le_of_lt hk)
    rw [Nat.succ_mul, hsizes.maxRows_mul] at hle
    omega
  have hbefore' := Nat.mul_le_mul_right s.cfg.wordStep hbefore
  have hinside' := (Nat.mul_le_mul_right s.cfg.wordStep hinside).trans hsizes.max_fits
  rw [Nat.succ_mul] at hinside'
  rw [wordAddr_rowAddr, flashKnown, flashKnown, BitVec.toNat_ofNat]
  refine h.apart _ ?_
  rw [rowsWords_length hsizes hlength (hn.trans hk.le)]
  exact not_sharesAddress_of_disjoint (q := 0) (by omega)

/-- What an executed block write answers, and its events. -/
theorem exec_writeMax_emits {A : Word} {words : List Word} {s : State}
    (hallowed : ∀ k < s.cfg.maxRows, writeRefused s.cfg (rowAddr s.cfg A k) = false) :
    ∃ t, exec (.writeMax A words) s = .next t ∧
      Emits s t (rowEvents s.cfg A words s.cfg.maxRows) ∧ t.freeCount = s.freeCount := by
  have hemits := emits_flashWriteRows (writeMaxRows s.cfg A words) s
  rw [writeMaxRows_events] at hemits
  exact ⟨_, exec_writeMax_of_allowed hallowed, hemits, by rw [flashWriteRows_spec]⟩

/-- Settles O35: all rows are one block in the record (`holdsBlock_rowEvents`). -/
theorem writeMaxReadsBack : Obligations.WriteMaxReadsBack := by
  intro A words s hc hlength hallowed halign
  have hsizes := sizes_of_wellFormed hc
  obtain ⟨t, ht, hemits, hfree⟩ := exec_writeMax_emits (words := words) hallowed
  have hblock : HoldsBlock s.cfg A.toNat (rowsWords s.cfg A words s.cfg.maxRows) s.flash t.flash := by
    rw [hemits.flash]
    exact holdsBlock_rowEvents hsizes s.flash hlength halign le_rfl
  refine ⟨t, ht, fun k hk i hi => flashKnown_row_written hsizes hlength le_rfl hblock hk hi, ?_,
    hemits.inputs, hemits.elapsed, hfree⟩
  have hother := hblock.otherWordsKept
  rwa [rowsWords_length hsizes hlength le_rfl, hsizes.maxRows_mul] at hother

/-- A block write cut short after `n` events has written its first `n` rows, or all there are. -/
theorem rowEvents_take (c : Config) (A : Word) (words : List Word) (n : Nat) :
    (rowEvents c A words c.maxRows).take n = rowEvents c A words (min n c.maxRows) := by
  rw [rowEvents, ← List.map_take, List.take_range, rowEvents]

/-- Settles O56: the cut keeps the first events (`cutShort_next`): the erase alone, whose page is one block, and
the first `n` rows. -/
theorem resetBetweenTwoFlashOperations : Obligations.ResetBetweenTwoFlashOperations := by
  refine ⟨fun A s hc hallowed hz => ?_, fun A words n s hc hlength hallowed halign => ?_⟩
  · have hemits := (emits_flashErase A s).trans
      (emits_flashWriteRow 0#32 (stubRow s.cfg) (flashErase A s))
    have hcut := cutShort_next 1 hemits.trace
    rw [exec_erasePage_of_zero_page hallowed ((inZeroPage_iff _ _).2 hz), hcut]
    refine ⟨_, rfl, fun i hi => ?_, ⟨rfl, rfl, rfl, rfl, rfl, rfl, rfl⟩, rfl⟩
    have hblock := holdsBlock_erase (sizes_of_wellFormed hc) A s.flash
    rw [pageBase_of_zero_page hz] at hblock
    refine (hblock.flashKnown (by simpa using hi)).trans ?_
    simp [hi]
  · have hsizes := sizes_of_wellFormed hc
    obtain ⟨t, ht, hemits, -⟩ := exec_writeMax_emits (words := words) hallowed
    rw [ht, cutShort_next n hemits.trace, rowEvents_take]
    refine ⟨_, rfl, fun k hk i hi => ?_, ⟨rfl, rfl, rfl, rfl, rfl, rfl, rfl⟩, hemits.cfg⟩
    have hmin : min n s.cfg.maxRows ≤ s.cfg.maxRows := min_le_right _ _
    have hblock := holdsBlock_rowEvents hsizes s.flash hlength halign hmin
    split
    · exact flashKnown_row_written hsizes hlength hmin hblock (by omega) hi
    · exact flashKnown_row_unwritten hsizes hlength hk (by omega) hblock hi

end Sys2Proof.Machine
end

section
/-! The wire examples of 30_encoding.md section 8. -/

namespace Sys2Proof

/-- Settles O1: seven closed frames, read by the kernel. -/
theorem specWireExamplesDecode : Obligations.SpecWireExamplesDecode := by
  unfold Obligations.SpecWireExamplesDecode
  decide +kernel

end Sys2Proof
end
